-- ==== Sys2Proof/Word.lean ====
section
/-! DEFINITION. The machine's word types (R6, R8): bytes, 16-bit halfwords, 32-bit words and addresses, and register
numbers. -/

namespace Sys2Proof

/-- A byte: the unit of memory and of an instruction's encoding (R6, R40). -/
abbrev Byte := BitVec 8

/-- A halfword: the width of a general register and of an ALU result (R6, R21). -/
abbrev Half := BitVec 16

/-- A word: a register pair's value, a 32-bit immediate, offset or product (R6, R24). -/
abbrev Word := BitVec 32

/-- A byte address, and the width of the program counter (R6, R25, R40). -/
abbrev Addr := BitVec 32

/-- The number of a general register, R0 to R15 (R21, R61). -/
abbrev RegNum := Fin 16

end Sys2Proof
end

