-- ==== Sys2Proof/Config.lean ====
section
/-! DEFINITION. The open parameters of R7, as plain data, with the spec's defaults, and the free values: opaque
constants without a body for what the spec leaves unconstrained (D10, D12, D18). -/

namespace Sys2Proof

/-- A run of `size` byte addresses from `base` on, modulo 2^32 (D4). The platform's memory map and the program text are
lists of regions (R42, R55). -/
structure Region where
  base : Addr
  size : Nat
deriving DecidableEq, Repr

/-- `RETADDR_MODE` (R190): how JSR and RTS pass a 32-bit return address through the R14 stack. -/
inductive RetaddrMode where
  /-- One halfword: the low 16 bits are pushed, and zero-extended when popped. -/
  | half16
  /-- The whole 32-bit address; the spec does not define the stack layout. -/
  | word32
deriving DecidableEq, Repr

/-- `REG_HI_NIBBLE` (R61, R73): what a register byte with non-zero bits 7:4 does. -/
inductive RegHiNibble where
  /-- The encoding is undefined. -/
  | fault
  /-- Bits 7:4 are dropped. -/
  | ignore
deriving DecidableEq, Repr

/-- `MULL_LEN` (R180, R183): the length of UMULL and SMULL in bytes. -/
inductive MullLen where
  /-- Four bytes: the position of `rn1` is unknown, so the two instructions cannot be decoded (R183). -/
  | four
  /-- Five bytes, as the Encoding line draws them. -/
  | five
deriving DecidableEq, Repr

/-- `MULL_ROLES` (R180, R183): which encoded register byte of UMULL and SMULL plays which role. -/
inductive MullRoles where
  | operationLine
  | exampleIdentity
  | exampleRdRn1
deriving DecidableEq, Repr

/-- The open parameters of R7 that are plain data. Each is an argument of the model: no instruction writes them. -/
structure Params where
  /-- The addresses where the platform has memory (R42). -/
  mapped : List Region
  /-- `TEXT`: the addresses of the program's instruction bytes (R55). -/
  text : List Region
  /-- `UNIFIED_MEMORY` (R41). -/
  unifiedMemory : Bool
  /-- `DATA_ALIGN_FAULT` (R49). -/
  dataAlignFault : Bool
  retaddrMode : RetaddrMode
  regHiNibble : RegHiNibble
  mullLen : MullLen
  mullRoles : MullRoles
deriving DecidableEq, Repr

/-- The defaults of R7, before any program is loaded. `TEXT`'s default is the bytes the loader placed, so it is empty
here, and `State.load` adds the bytes it places (log 2). DESIGN CHOICE (unsafe, log 1): R7 gives `mapped` no default;
the whole address space is mapped. -/
def Params.default : Params where
  mapped := [⟨0, 4294967296⟩]
  text := []
  unifiedMemory := true
  dataAlignFault := false
  retaddrMode := .half16
  regHiNibble := .fault
  mullLen := .five
  mullRoles := .operationLine

/-- The six places where one instruction can write one register twice with different values (D12, U16, U17). -/
inductive AnyofSite where
  | movImmPair
  | movLdPair
  | movLdPairOff
  | umull
  | smull
  | pop
deriving DecidableEq, Repr

namespace Config

/-- DESIGN CHOICE (unsafe, log 4): `RESET_PC`, which R35 leaves to the platform; the entry point of the programs of
95_test_vectors.md part 3 (R231). -/
def resetPc : Addr := 0x1000

/-- DESIGN CHOICE (unsafe, log 3): `RESET_REGS`, which R35 leaves unspecified. -/
def resetReg : Half := 0

/-- DESIGN CHOICE (unsafe, log 3): `RESET_Z` and `RESET_V`, which R35 leaves unspecified. -/
def resetFlag : Bool := false

/-- Free value (safe, log 6): `flagV_sub` of R29, of the draw's number and the two operands. -/
opaque flagVSub : Nat → Half → Half → Bool

/-- Free value (safe, log 6): `flagV_lsh` of R29, of the draw's number, the operand and the 5-bit amount. -/
opaque flagVLsh : Nat → Half → BitVec 5 → Bool

/-- Free value (safe, log 6): `flagV_rsh` of R29, of the draw's number, the operand and the 5-bit amount. -/
opaque flagVRsh : Nat → Half → BitVec 5 → Bool

/-- Free value (safe, log 6): `flagV_umull` of R29, of the draw's number and the two sources. -/
opaque flagVUmull : Nat → Half → Half → Bool

/-- Free value (safe, log 6): `flagV_smull` of R29, of the draw's number and the two sources. -/
opaque flagVSmull : Nat → Half → Half → Bool

/-- Free value (safe, log 7): which of the two candidates `anyof` takes (R9, D12), by place, the draw's number and the
candidates; `true` takes the first. -/
opaque anyofFirst : AnyofSite → Nat → Half → Half → Bool

/-- Free value (safe, log 8): `pc` in the halted state (R196, R238), of the draw's number and HLT's own address. -/
opaque haltPc : Nat → Addr → Addr

end Config

end Sys2Proof
end

