-- ==== Sys2Proof/Syntax.lean ====
section
/-! DEFINITION. The instruction set: one constructor for each of the 60 rows of spec/opcode_table.json, in the table's
order (R67, R68). Operand names are the manual's (R12, R65). -/

namespace Sys2Proof

/-- An instruction form with its operands. The three numbers in a docstring are opcode, specifier and rule. -/
inductive Instr where
  /-- NOP, 0x00/0x00, R195. -/
  | nop
  /-- ADD Rd, #imm16, 0x01/0x00, R102. -/
  | addImm (rd : RegNum) (imm : Half)
  /-- ADD Rd, Rn, 0x01/0x01, R103. -/
  | addReg (rd rn : RegNum)
  /-- ADD Rd, [addr32], 0x01/0x02, R104. -/
  | addMem (rd : RegNum) (addr : Addr)
  /-- SUB Rd, #imm16, 0x02/0x00, R105. -/
  | subImm (rd : RegNum) (imm : Half)
  /-- SUB Rd, Rn, 0x02/0x01, R106. -/
  | subReg (rd rn : RegNum)
  /-- SUB Rd, [addr32], 0x02/0x02, R107. -/
  | subMem (rd : RegNum) (addr : Addr)
  /-- MUL Rd, #imm16, 0x03/0x00, R108. -/
  | mulImm (rd : RegNum) (imm : Half)
  /-- MUL Rd, Rn, 0x03/0x01, R109. -/
  | mulReg (rd rn : RegNum)
  /-- MUL Rd, [addr32], 0x03/0x02, R110. -/
  | mulMem (rd : RegNum) (addr : Addr)
  /-- AND Rd, #imm16, 0x04/0x00, R111. -/
  | andImm (rd : RegNum) (imm : Half)
  /-- AND Rd, Rn, 0x04/0x01, R112. -/
  | andReg (rd rn : RegNum)
  /-- AND Rd, [addr32], 0x04/0x02, R113. -/
  | andMem (rd : RegNum) (addr : Addr)
  /-- OR Rd, #imm16, 0x05/0x00, R114. -/
  | orImm (rd : RegNum) (imm : Half)
  /-- OR Rd, Rn, 0x05/0x01, R115. -/
  | orReg (rd rn : RegNum)
  /-- OR Rd, [addr32], 0x05/0x02, R116. -/
  | orMem (rd : RegNum) (addr : Addr)
  /-- XOR Rd, #imm16, 0x06/0x00, R117. -/
  | xorImm (rd : RegNum) (imm : Half)
  /-- XOR Rd, Rn, 0x06/0x01, R118. -/
  | xorReg (rd rn : RegNum)
  /-- XOR Rd, [addr32], 0x06/0x02, R119. -/
  | xorMem (rd : RegNum) (addr : Addr)
  /-- LSH Rd, #imm16, 0x07/0x00, R120. -/
  | lshImm (rd : RegNum) (imm : Half)
  /-- LSH Rd, Rn, 0x07/0x01, R121. -/
  | lshReg (rd rn : RegNum)
  /-- LSH Rd, [addr32], 0x07/0x02, R122. -/
  | lshMem (rd : RegNum) (addr : Addr)
  /-- RSH Rd, #imm16, 0x08/0x00, R123. -/
  | rshImm (rd : RegNum) (imm : Half)
  /-- RSH Rd, Rn, 0x08/0x01, R124. -/
  | rshReg (rd rn : RegNum)
  /-- RSH Rd, [addr32], 0x08/0x02, R125. -/
  | rshMem (rd : RegNum) (addr : Addr)
  /-- MOV Rd, #imm16, 0x09/0x00, R141. -/
  | movImm (rd : RegNum) (imm : Half)
  /-- MOV Rd, Rn, #imm32, 0x09/0x01, R142. -/
  | movImmPair (rd rn : RegNum) (imm : Word)
  /-- MOV Rd, Rn, 0x09/0x02, R143. -/
  | movReg (rd rn : RegNum)
  /-- MOV Rd.L, [addr32], 0x09/0x03, R144. -/
  | movLdLow (rd : RegNum) (addr : Addr)
  /-- MOV Rd.H, [addr32], 0x09/0x04, R145. -/
  | movLdHigh (rd : RegNum) (addr : Addr)
  /-- MOV Rd, [addr32], 0x09/0x05, R146. -/
  | movLdHalf (rd : RegNum) (addr : Addr)
  /-- MOV Rd, Rn1, [addr32], 0x09/0x06, R147. -/
  | movLdPair (rd rn1 : RegNum) (addr : Addr)
  /-- MOV [addr32], Rd.L, 0x09/0x07, R148. -/
  | movStLow (rd : RegNum) (addr : Addr)
  /-- MOV [addr32], Rd.H, 0x09/0x08, R149. -/
  | movStHigh (rd : RegNum) (addr : Addr)
  /-- MOV [addr32], Rd, 0x09/0x09, R150. -/
  | movStHalf (rd : RegNum) (addr : Addr)
  /-- MOV [addr32], Rd, Rn1, 0x09/0x0A, R151. -/
  | movStPair (rd rn1 : RegNum) (addr : Addr)
  /-- MOV Rd.L, [Rn + offset32], 0x09/0x0B, R152. -/
  | movLdLowOff (rd rn : RegNum) (off : Word)
  /-- MOV Rd.H, [Rn + offset32], 0x09/0x0C, R153. -/
  | movLdHighOff (rd rn : RegNum) (off : Word)
  /-- MOV Rd, [Rn + offset32], 0x09/0x0D, R154. -/
  | movLdHalfOff (rd rn : RegNum) (off : Word)
  /-- MOV Rd, Rd1, [Rn + offset32], 0x09/0x0E, R155. -/
  | movLdPairOff (rd rd1 rn : RegNum) (off : Word)
  /-- MOV [Rn + offset32], Rd.L, 0x09/0x0F, R156. -/
  | movStLowOff (rd rn : RegNum) (off : Word)
  /-- MOV [Rn + offset32], Rd.H, 0x09/0x10, R157. -/
  | movStHighOff (rd rn : RegNum) (off : Word)
  /-- MOV [Rn + offset32], Rd, 0x09/0x11, R158. -/
  | movStHalfOff (rd rn : RegNum) (off : Word)
  /-- MOV [Rn + offset32], Rd, Rd1, 0x09/0x12, R159. -/
  | movStPairOff (rd rd1 rn : RegNum) (off : Word)
  /-- B target32, 0x0A/0x00, R171. -/
  | b (target : Addr)
  /-- BE Rd, Rn, target32, 0x0B/0x00, R172. -/
  | be (rd rn : RegNum) (target : Addr)
  /-- BNE Rd, Rn, target32, 0x0C/0x00, R173. -/
  | bne (rd rn : RegNum) (target : Addr)
  /-- BLT Rd, Rn, target32, 0x0D/0x00, R174. -/
  | blt (rd rn : RegNum) (target : Addr)
  /-- BGT Rd, Rn, target32, 0x0E/0x00, R175. -/
  | bgt (rd rn : RegNum) (target : Addr)
  /-- BRO target32, 0x0F/0x00, R176. -/
  | bro (target : Addr)
  /-- UMULL, 0x10/0x00, R181; the register bytes 2, 3, 4 in the encoding's order. -/
  | umull (rd rn rn1 : RegNum)
  /-- SMULL, 0x11/0x00, R182; the register bytes 2, 3, 4 in the encoding's order. -/
  | smull (rd rn rn1 : RegNum)
  /-- HLT, 0x12/0x00, R196. -/
  | hlt
  /-- PSH Rd, 0x13/0x00, R187. -/
  | psh (rd : RegNum)
  /-- POP Rd, 0x14/0x00, R188. -/
  | pop (rd : RegNum)
  /-- JSR target32, 0x15/0x00, R191. -/
  | jsr (target : Addr)
  /-- RTS, 0x16/0x00, R192. -/
  | rts
  /-- WFI, 0x17/0x00, R197. -/
  | wfi
  /-- ENI, 0x18/0x00, R198. -/
  | eni
  /-- DSI, 0x19/0x00, R199. -/
  | dsi
deriving DecidableEq, Repr

end Sys2Proof
end

