-- ==== Sys2Proof/WellFormed.lean ====
section
/-! DEFINITION. Which instructions are admitted. Operand ranges are in the types (a register number is below 16, a
literal field has its width: R61, R66, R71), so one check is left: UMULL and SMULL have a known layout only under
`MULL_LEN = 5` (R183). -/

namespace Sys2Proof

/-- The instruction has an encoding under the parameters: UMULL and SMULL are admitted only with `MULL_LEN = 5` (R183:
a model with `MULL_LEN = 4` must refuse them); every other form always is. -/
def Instr.wellFormed (p : Params) : Instr → Bool
  | .umull _ _ _ => p.mullLen == .five
  | .smull _ _ _ => p.mullLen == .five
  | .nop | .addImm _ _ | .addReg _ _ | .addMem _ _ | .subImm _ _ | .subReg _ _ | .subMem _ _
  | .mulImm _ _ | .mulReg _ _ | .mulMem _ _ | .andImm _ _ | .andReg _ _ | .andMem _ _
  | .orImm _ _ | .orReg _ _ | .orMem _ _ | .xorImm _ _ | .xorReg _ _ | .xorMem _ _
  | .lshImm _ _ | .lshReg _ _ | .lshMem _ _ | .rshImm _ _ | .rshReg _ _ | .rshMem _ _
  | .movImm _ _ | .movImmPair _ _ _ | .movReg _ _ | .movLdLow _ _ | .movLdHigh _ _ | .movLdHalf _ _
  | .movLdPair _ _ _ | .movStLow _ _ | .movStHigh _ _ | .movStHalf _ _ | .movStPair _ _ _
  | .movLdLowOff _ _ _ | .movLdHighOff _ _ _ | .movLdHalfOff _ _ _ | .movLdPairOff _ _ _ _
  | .movStLowOff _ _ _ | .movStHighOff _ _ _ | .movStHalfOff _ _ _ | .movStPairOff _ _ _ _
  | .b _ | .be _ _ _ | .bne _ _ _ | .blt _ _ _ | .bgt _ _ _ | .bro _
  | .hlt | .psh _ | .pop _ | .jsr _ | .rts | .wfi | .eni | .dsi => true

end Sys2Proof
end

