-- ==== Sys2Proof/Decode.lean ====
section
/-! DEFINITION. The decoder, total on any bytes (R72), the encoder written from the same tables (R64, R65, R68), the
length table (R64), and the byte-order helpers both use (R45, R66). -/

namespace Sys2Proof

/-- Bits 15:8 of a halfword, the byte at the lower address (R43, R66). -/
def hiByte (h : Half) : Byte := h.extractLsb' 8 8

/-- Bits 7:0 of a halfword, the byte at the higher address (R43, R66). -/
def loByte (h : Half) : Byte := h.extractLsb' 0 8

/-- Bits 31:16 of a word (R8, R24). -/
def hiHalf (w : Word) : Half := w.extractLsb' 16 16

/-- Bits 15:0 of a word (R8, R24). -/
def loHalf (w : Word) : Half := w.extractLsb' 0 16

/-- A halfword from its two bytes, the more significant first: `{hi, lo}` (R43, R66). -/
def joinHalf (hi lo : Byte) : Half := hi ++ lo

/-- A word from its two halfwords, the more significant first: `{hi, lo}` (R8, R24). -/
def joinWord (hi lo : Half) : Word := hi ++ lo

/-- The two bytes of a halfword in address order, most significant first (R44, R45). -/
def halfBytes (h : Half) : List Byte := [hiByte h, loByte h]

/-- The four bytes of a word in address order, most significant first (R44, R45). -/
def wordBytes (w : Word) : List Byte := halfBytes (hiHalf w) ++ halfBytes (loHalf w)

/-- The register byte an encoder writes: the number in bits 3:0, zero in bits 7:4 (R61). -/
def regByte (r : RegNum) : Byte := BitVec.ofNat 8 r.val

/-- The register a register byte names: bits 3:0 (R61). Bits 7:4 must be zero under `REG_HI_NIBBLE = fault` and are
dropped under `ignore` (R73). -/
def readReg (p : Params) (b : Byte) : Option RegNum :=
  match p.regHiNibble with
  | .fault => if b.toNat < 16 then some (Fin.ofNat 16 b.toNat) else none
  | .ignore => some (Fin.ofNat 16 b.toNat)

/-- The nine formats of R65, each holding the instruction as a function of its operand fields in byte order. -/
inductive Form where
  /-- No operand, 2 bytes. -/
  | n (i : Instr)
  /-- One register, 3 bytes. -/
  | r (f : RegNum → Instr)
  /-- Two registers, 4 bytes. -/
  | rr (f : RegNum → RegNum → Instr)
  /-- A register and a 16-bit immediate, 5 bytes. -/
  | ri (f : RegNum → Half → Instr)
  /-- Three registers, 5 bytes: UMULL and SMULL. -/
  | rrr (f : RegNum → RegNum → RegNum → Instr)
  /-- A 32-bit field, 6 bytes. -/
  | a (f : Word → Instr)
  /-- A register and a 32-bit field, 7 bytes. -/
  | ra (f : RegNum → Word → Instr)
  /-- Two registers and a 32-bit field, 8 bytes. -/
  | rra (f : RegNum → RegNum → Word → Instr)
  /-- Three registers and a 32-bit field, 9 bytes. -/
  | rrra (f : RegNum → RegNum → RegNum → Word → Instr)

/-- The length in bytes of an instruction of the format (R64, R65). -/
def Form.length : Form → Nat
  | .n _ => 2
  | .r _ => 3
  | .rr _ => 4
  | .ri _ => 5
  | .rrr _ => 5
  | .a _ => 6
  | .ra _ => 7
  | .rra _ => 8
  | .rrra _ => 9

/-- The opcode map (R67, R68): the form selected by the opcode byte `b[1]` and the specifier byte `b[0]`, as numbers;
`none` for the undefined encodings of R69. -/
def opcodeForm (op spec : Nat) : Option Form :=
  match op, spec with
  | 0x00, 0x00 => some (.n .nop)
  | 0x01, 0x00 => some (.ri .addImm)
  | 0x01, 0x01 => some (.rr .addReg)
  | 0x01, 0x02 => some (.ra .addMem)
  | 0x02, 0x00 => some (.ri .subImm)
  | 0x02, 0x01 => some (.rr .subReg)
  | 0x02, 0x02 => some (.ra .subMem)
  | 0x03, 0x00 => some (.ri .mulImm)
  | 0x03, 0x01 => some (.rr .mulReg)
  | 0x03, 0x02 => some (.ra .mulMem)
  | 0x04, 0x00 => some (.ri .andImm)
  | 0x04, 0x01 => some (.rr .andReg)
  | 0x04, 0x02 => some (.ra .andMem)
  | 0x05, 0x00 => some (.ri .orImm)
  | 0x05, 0x01 => some (.rr .orReg)
  | 0x05, 0x02 => some (.ra .orMem)
  | 0x06, 0x00 => some (.ri .xorImm)
  | 0x06, 0x01 => some (.rr .xorReg)
  | 0x06, 0x02 => some (.ra .xorMem)
  | 0x07, 0x00 => some (.ri .lshImm)
  | 0x07, 0x01 => some (.rr .lshReg)
  | 0x07, 0x02 => some (.ra .lshMem)
  | 0x08, 0x00 => some (.ri .rshImm)
  | 0x08, 0x01 => some (.rr .rshReg)
  | 0x08, 0x02 => some (.ra .rshMem)
  | 0x09, 0x00 => some (.ri .movImm)
  | 0x09, 0x01 => some (.rra .movImmPair)
  | 0x09, 0x02 => some (.rr .movReg)
  | 0x09, 0x03 => some (.ra .movLdLow)
  | 0x09, 0x04 => some (.ra .movLdHigh)
  | 0x09, 0x05 => some (.ra .movLdHalf)
  | 0x09, 0x06 => some (.rra .movLdPair)
  | 0x09, 0x07 => some (.ra .movStLow)
  | 0x09, 0x08 => some (.ra .movStHigh)
  | 0x09, 0x09 => some (.ra .movStHalf)
  | 0x09, 0x0A => some (.rra .movStPair)
  | 0x09, 0x0B => some (.rra .movLdLowOff)
  | 0x09, 0x0C => some (.rra .movLdHighOff)
  | 0x09, 0x0D => some (.rra .movLdHalfOff)
  | 0x09, 0x0E => some (.rrra .movLdPairOff)
  | 0x09, 0x0F => some (.rra .movStLowOff)
  | 0x09, 0x10 => some (.rra .movStHighOff)
  | 0x09, 0x11 => some (.rra .movStHalfOff)
  | 0x09, 0x12 => some (.rrra .movStPairOff)
  | 0x0A, 0x00 => some (.a .b)
  | 0x0B, 0x00 => some (.rra .be)
  | 0x0C, 0x00 => some (.rra .bne)
  | 0x0D, 0x00 => some (.rra .blt)
  | 0x0E, 0x00 => some (.rra .bgt)
  | 0x0F, 0x00 => some (.a .bro)
  | 0x10, 0x00 => some (.rrr .umull)
  | 0x11, 0x00 => some (.rrr .smull)
  | 0x12, 0x00 => some (.n .hlt)
  | 0x13, 0x00 => some (.r .psh)
  | 0x14, 0x00 => some (.r .pop)
  | 0x15, 0x00 => some (.a .jsr)
  | 0x16, 0x00 => some (.n .rts)
  | 0x17, 0x00 => some (.n .wfi)
  | 0x18, 0x00 => some (.n .eni)
  | 0x19, 0x00 => some (.n .dsi)
  | _, _ => none

/-- The form's byte layout is known under the parameters: format RRR (UMULL and SMULL) has none with `MULL_LEN = 4`
(R183). -/
def layoutKnown (p : Params) : Form → Bool
  | .rrr _ => p.mullLen == .five
  | .n _ | .r _ | .rr _ | .ri _ | .a _ | .ra _ | .rra _ | .rrra _ => true

/-- The operands of a form, read from the bytes that follow the opcode byte (R65, R66), and the bytes left over. `none`
where a register byte is refused (R73) or bytes are missing. -/
def readOperands (p : Params) : Form → List Byte → Option (Instr × List Byte)
  | .n i, rest => some (i, rest)
  | .r f, d :: rest => (readReg p d).map fun d => (f d, rest)
  | .rr f, d :: n :: rest => (readReg p d).bind fun d => (readReg p n).map fun n => (f d n, rest)
  | .ri f, d :: i1 :: i0 :: rest => (readReg p d).map fun d => (f d (joinHalf i1 i0), rest)
  | .rrr f, d :: n :: m :: rest =>
    (readReg p d).bind fun d => (readReg p n).bind fun n => (readReg p m).map fun m => (f d n m, rest)
  | .a f, w3 :: w2 :: w1 :: w0 :: rest => some (f (joinWord (joinHalf w3 w2) (joinHalf w1 w0)), rest)
  | .ra f, d :: w3 :: w2 :: w1 :: w0 :: rest =>
    (readReg p d).map fun d => (f d (joinWord (joinHalf w3 w2) (joinHalf w1 w0)), rest)
  | .rra f, d :: n :: w3 :: w2 :: w1 :: w0 :: rest =>
    (readReg p d).bind fun d => (readReg p n).map fun n =>
      (f d n (joinWord (joinHalf w3 w2) (joinHalf w1 w0)), rest)
  | .rrra f, d :: m :: n :: w3 :: w2 :: w1 :: w0 :: rest =>
    (readReg p d).bind fun d => (readReg p m).bind fun m => (readReg p n).map fun n =>
      (f d m n (joinWord (joinHalf w3 w2) (joinHalf w1 w0)), rest)
  | _, _ => none

/-- Why a list of bytes is not an instruction. -/
inductive DecodeError where
  /-- Fewer bytes than the instruction's length; a fetch from memory never meets this. -/
  | truncated
  /-- The pair is not one of the 60, or a register byte is refused; the specifier and opcode bytes (R69, R73). -/
  | undefined (b0 b1 : Byte)
  /-- UMULL or SMULL under `MULL_LEN = 4` (R183). -/
  | longMultiplyLayout
deriving DecidableEq, Repr

/-- The decoder (R72), in its order: the pair of specifier and opcode, the remaining bytes, the register bytes. It
answers the instruction and the bytes behind it. -/
def decode (p : Params) : List Byte → Except DecodeError (Instr × List Byte)
  | b0 :: b1 :: rest =>
    match opcodeForm b1.toNat b0.toNat with
    | none => .error (.undefined b0 b1)
    | some form =>
      if layoutKnown p form then
        if rest.length + 2 < form.length then .error .truncated
        else match readOperands p form rest with
          | some x => .ok x
          | none => .error (.undefined b0 b1)
      else .error .longMultiplyLayout
  | [_] => .error .truncated
  | [] => .error .truncated

/-- The bytes of an instruction, lowest address first: specifier, opcode, operands (R60, R65, R68). -/
def encode : Instr → List Byte
  | .nop => [0x00, 0x00]
  | .addImm rd imm => [0x00, 0x01, regByte rd] ++ halfBytes imm
  | .addReg rd rn => [0x01, 0x01, regByte rd, regByte rn]
  | .addMem rd addr => [0x02, 0x01, regByte rd] ++ wordBytes addr
  | .subImm rd imm => [0x00, 0x02, regByte rd] ++ halfBytes imm
  | .subReg rd rn => [0x01, 0x02, regByte rd, regByte rn]
  | .subMem rd addr => [0x02, 0x02, regByte rd] ++ wordBytes addr
  | .mulImm rd imm => [0x00, 0x03, regByte rd] ++ halfBytes imm
  | .mulReg rd rn => [0x01, 0x03, regByte rd, regByte rn]
  | .mulMem rd addr => [0x02, 0x03, regByte rd] ++ wordBytes addr
  | .andImm rd imm => [0x00, 0x04, regByte rd] ++ halfBytes imm
  | .andReg rd rn => [0x01, 0x04, regByte rd, regByte rn]
  | .andMem rd addr => [0x02, 0x04, regByte rd] ++ wordBytes addr
  | .orImm rd imm => [0x00, 0x05, regByte rd] ++ halfBytes imm
  | .orReg rd rn => [0x01, 0x05, regByte rd, regByte rn]
  | .orMem rd addr => [0x02, 0x05, regByte rd] ++ wordBytes addr
  | .xorImm rd imm => [0x00, 0x06, regByte rd] ++ halfBytes imm
  | .xorReg rd rn => [0x01, 0x06, regByte rd, regByte rn]
  | .xorMem rd addr => [0x02, 0x06, regByte rd] ++ wordBytes addr
  | .lshImm rd imm => [0x00, 0x07, regByte rd] ++ halfBytes imm
  | .lshReg rd rn => [0x01, 0x07, regByte rd, regByte rn]
  | .lshMem rd addr => [0x02, 0x07, regByte rd] ++ wordBytes addr
  | .rshImm rd imm => [0x00, 0x08, regByte rd] ++ halfBytes imm
  | .rshReg rd rn => [0x01, 0x08, regByte rd, regByte rn]
  | .rshMem rd addr => [0x02, 0x08, regByte rd] ++ wordBytes addr
  | .movImm rd imm => [0x00, 0x09, regByte rd] ++ halfBytes imm
  | .movImmPair rd rn imm => [0x01, 0x09, regByte rd, regByte rn] ++ wordBytes imm
  | .movReg rd rn => [0x02, 0x09, regByte rd, regByte rn]
  | .movLdLow rd addr => [0x03, 0x09, regByte rd] ++ wordBytes addr
  | .movLdHigh rd addr => [0x04, 0x09, regByte rd] ++ wordBytes addr
  | .movLdHalf rd addr => [0x05, 0x09, regByte rd] ++ wordBytes addr
  | .movLdPair rd rn1 addr => [0x06, 0x09, regByte rd, regByte rn1] ++ wordBytes addr
  | .movStLow rd addr => [0x07, 0x09, regByte rd] ++ wordBytes addr
  | .movStHigh rd addr => [0x08, 0x09, regByte rd] ++ wordBytes addr
  | .movStHalf rd addr => [0x09, 0x09, regByte rd] ++ wordBytes addr
  | .movStPair rd rn1 addr => [0x0A, 0x09, regByte rd, regByte rn1] ++ wordBytes addr
  | .movLdLowOff rd rn off => [0x0B, 0x09, regByte rd, regByte rn] ++ wordBytes off
  | .movLdHighOff rd rn off => [0x0C, 0x09, regByte rd, regByte rn] ++ wordBytes off
  | .movLdHalfOff rd rn off => [0x0D, 0x09, regByte rd, regByte rn] ++ wordBytes off
  | .movLdPairOff rd rd1 rn off => [0x0E, 0x09, regByte rd, regByte rd1, regByte rn] ++ wordBytes off
  | .movStLowOff rd rn off => [0x0F, 0x09, regByte rd, regByte rn] ++ wordBytes off
  | .movStHighOff rd rn off => [0x10, 0x09, regByte rd, regByte rn] ++ wordBytes off
  | .movStHalfOff rd rn off => [0x11, 0x09, regByte rd, regByte rn] ++ wordBytes off
  | .movStPairOff rd rd1 rn off => [0x12, 0x09, regByte rd, regByte rd1, regByte rn] ++ wordBytes off
  | .b target => [0x00, 0x0A] ++ wordBytes target
  | .be rd rn target => [0x00, 0x0B, regByte rd, regByte rn] ++ wordBytes target
  | .bne rd rn target => [0x00, 0x0C, regByte rd, regByte rn] ++ wordBytes target
  | .blt rd rn target => [0x00, 0x0D, regByte rd, regByte rn] ++ wordBytes target
  | .bgt rd rn target => [0x00, 0x0E, regByte rd, regByte rn] ++ wordBytes target
  | .bro target => [0x00, 0x0F] ++ wordBytes target
  | .umull rd rn rn1 => [0x00, 0x10, regByte rd, regByte rn, regByte rn1]
  | .smull rd rn rn1 => [0x00, 0x11, regByte rd, regByte rn, regByte rn1]
  | .hlt => [0x00, 0x12]
  | .psh rd => [0x00, 0x13, regByte rd]
  | .pop rd => [0x00, 0x14, regByte rd]
  | .jsr target => [0x00, 0x15] ++ wordBytes target
  | .rts => [0x00, 0x16]
  | .wfi => [0x00, 0x17]
  | .eni => [0x00, 0x18]
  | .dsi => [0x00, 0x19]

/-- The length table of R64, by instruction: the number of bytes from one instruction to the next (R26). -/
def Instr.length : Instr → Nat
  | .nop | .hlt | .rts | .wfi | .eni | .dsi => 2
  | .psh _ | .pop _ => 3
  | .addReg _ _ | .subReg _ _ | .mulReg _ _ | .andReg _ _ | .orReg _ _ | .xorReg _ _ | .lshReg _ _ | .rshReg _ _
  | .movReg _ _ => 4
  | .addImm _ _ | .subImm _ _ | .mulImm _ _ | .andImm _ _ | .orImm _ _ | .xorImm _ _ | .lshImm _ _ | .rshImm _ _
  | .movImm _ _ | .umull _ _ _ | .smull _ _ _ => 5
  | .b _ | .bro _ | .jsr _ => 6
  | .addMem _ _ | .subMem _ _ | .mulMem _ _ | .andMem _ _ | .orMem _ _ | .xorMem _ _ | .lshMem _ _ | .rshMem _ _
  | .movLdLow _ _ | .movLdHigh _ _ | .movLdHalf _ _ | .movStLow _ _ | .movStHigh _ _ | .movStHalf _ _ => 7
  | .movImmPair _ _ _ | .movLdPair _ _ _ | .movStPair _ _ _ | .movLdLowOff _ _ _ | .movLdHighOff _ _ _
  | .movLdHalfOff _ _ _ | .movStLowOff _ _ _ | .movStHighOff _ _ _ | .movStHalfOff _ _ _
  | .be _ _ _ | .bne _ _ _ | .blt _ _ _ | .bgt _ _ _ => 8
  | .movLdPairOff _ _ _ _ | .movStPairOff _ _ _ _ => 9

/-- The first `n` bytes of an instruction whose bits are `w`, numbered as spec/opcode_table.json numbers them. The
table's word is the 16-bit value of specifier and opcode with the specifier in the high byte (R68, R77), so a word is
16 bits, stored most significant byte first; DEDUCED (safe, log 22). -/
def tableBytes (w : Nat) : Nat → List Byte
  | 0 => []
  | 1 => [BitVec.ofNat 8 (w / 256)]
  | n + 2 => BitVec.ofNat 8 (w / 256) :: BitVec.ofNat 8 w :: tableBytes (w / 65536) n

/-- The instruction the decoder reads, under the defaults of R7, from the word `w` of `nbits` bits; every bit above
them is 0. -/
def decodeTableWord (nbits w : Nat) : Option Instr :=
  match decode Params.default (tableBytes (w % 2 ^ nbits) 9) with
  | .ok (i, _) => some i
  | .error _ => none

end Sys2Proof
end

