-- ==== Sys2Proof/Machine/State.lean ====
section
/-! DEFINITION. The machine's state as plain data (R20), the reasons a step can stop (R211), and the states after reset
(R35). -/

namespace Sys2Proof.Machine

/-- Memory: pairs of an address and the byte it holds (R40). An address that is not listed reads as one fixed byte
(`Memory.unlistedByte`, log 5). The canonical form is `Memory.wf`. -/
abbrev Memory := List Host.Cell

/-- The architectural state (R20), the parameters of R7, and the model's own counter of free values. -/
structure State where
  /-- R0 to R15 (R21). -/
  regs : Vector Half 16
  /-- The program counter: the address of the current instruction's byte 0 (R25). -/
  pc : Addr
  /-- The zero flag Z (R27, R28). -/
  z : Bool
  /-- The overflow flag V (R27, R29). -/
  v : Bool
  /-- The halted bit (R31). -/
  halted : Bool
  /-- Memory (R40). -/
  mem : Memory
  /-- The parameters of R7; no instruction writes them (log 26). -/
  params : Params
  /-- The model's own field, not the spec's: how many free values have been drawn (log 9). -/
  draws : Nat
deriving DecidableEq, Repr

/-- Why a step stops with a fault. The first five are the model-level faults of R211: terminal, without any effect of the
instruction that raises them (R211, R214). -/
inductive Fault where
  /-- The decoder: the pair of specifier `b0` and opcode `b1` at `pc` is not defined (R69, U1, U2), or a register byte has
  non-zero bits 7:4 under `REG_HI_NIBBLE = fault` (R73, U3). Safe: the source gives no effect and no length. -/
  | undefinedInstruction (pc : Addr) (b0 b1 : Byte)
  /-- Fetch, load or store: `a` is the lowest byte of the access where the platform has nothing (R42, R43, R56, U4).
  Safe. -/
  | accessFault (a : Addr)
  /-- Load or store of 2 or 4 bytes at `a`, not a multiple of the size, under `DATA_ALIGN_FAULT` (R49, U5). Safe. -/
  | misalignedAccess (a : Addr)
  /-- A store, PSH or JSR: `a` is the lowest byte of the access inside the program text (R55, U6). Safe. -/
  | codeWrite (a : Addr)
  /-- JSR whose return address does not fit 16 bits under `RETADDR_MODE = half16` (R190, R191, U18). Safe. -/
  | unpredictable (reason : String)
  /-- The stuck state: a step of a halted machine, which has no successor (R31, R222, U26). Not a fault of R211 but the
  normal end of a run (R238). Safe. -/
  | halted
deriving DecidableEq, Repr

/-- Why a step is refused. The three named reasons stand only at parameter values that are not R7's defaults. -/
inductive Refusal where
  /-- An instruction of the table that the model gives no meaning. No arm raises it. Safe. -/
  | notModelled (mnemonic : String)
  /-- The decoder: UMULL or SMULL under `MULL_LEN = 4`, whose layout the source does not give (R183, U14). Safe. -/
  | longMultiplyLayout
  /-- JSR or RTS under `RETADDR_MODE = word32`, whose stack layout the spec does not define (R190, U19). Safe. -/
  | returnAddressLayout
  /-- A data load of the program-text byte `a` under `UNIFIED_MEMORY = false` (R41, D1, U7). Safe. -/
  | textRead (a : Addr)
deriving DecidableEq, Repr

/-- A state right after reset, as R35 describes it: not halted, `pc` at the entry point, registers, flags and memory as
given (R35 leaves them unspecified), under the platform's parameters. `State.startOfRun` adds a program (R231). -/
def State.boot (params : Params) (resetPc : Addr) (resetRegs : Vector Half 16) (resetZ resetV : Bool) (mem : Memory) :
    State where
  regs := resetRegs
  pc := resetPc
  z := resetZ
  v := resetV
  halted := false
  mem := mem
  params := params
  draws := 0

/-- The machine right after reset: R7's default parameters, nothing listed in memory, and the values the log names where
R35 gives none (DESIGN CHOICE, unsafe: log 1 to 5, 9). -/
def State.reset : State :=
  State.boot Params.default Config.resetPc (Vector.replicate 16 Config.resetReg) Config.resetFlag Config.resetFlag []

end Sys2Proof.Machine
end

