-- ==== Sys2Proof/Machine/Ops.lean ====
section
/-! DEFINITION. The named operations over memory and registers (R9, R42 to R44, R49, R55). The architecture takes no
exception and returns from none (R210, R214, R215), so no such operation stands here. -/

namespace Sys2Proof.Machine

/-- Go on with the result of an operation, or stop where it stopped. -/
def andThen {α β : Type} (o : Host.Outcome α Fault Refusal) (f : α → Host.Outcome β Fault Refusal) :
    Host.Outcome β Fault Refusal :=
  match o with
  | .next x => f x
  | .fault r => .fault r
  | .refused r => .refused r

/-! Memory. -/

/-- What an address that nothing has written reads as. DESIGN CHOICE (unsafe, log 5): R35 leaves memory unspecified where
the platform loaded nothing. -/
def Memory.unlistedByte : Byte := 0

/-- The byte at an address: that of the first entry listed for it, else `Memory.unlistedByte`. -/
def Memory.read : Memory → Nat → Byte
  | [], _ => Memory.unlistedByte
  | (k, v) :: m, a => if k = a then v else Memory.read m a

/-- Memory without any entry for an address. -/
def Memory.erase : Memory → Nat → Memory
  | [], _ => []
  | (k, v) :: m, a => if k = a then Memory.erase m a else (k, v) :: Memory.erase m a

/-- Memory with an entry put before the first greater address. -/
def Memory.place : Memory → Nat → Byte → Memory
  | [], a, b => [(a, b)]
  | (k, v) :: m, a, b => if a < k then (a, b) :: (k, v) :: m else (k, v) :: Memory.place m a b

/-- Write one byte, keeping the canonical form: an entry equal to what an unlisted address reads as is not listed. -/
def Memory.write (m : Memory) (a : Nat) (b : Byte) : Memory :=
  if b = Memory.unlistedByte then Memory.erase m a else Memory.place (Memory.erase m a) a b

/-- Write bytes at consecutive addresses from `a`, modulo 2^32 (R44). -/
def Memory.writeBytes (m : Memory) (a : Addr) : List Byte → Memory
  | [] => m
  | b :: bs => Memory.writeBytes (Memory.write m a.toNat b) (a + 1) bs

/-- The canonical form: addresses below 2^32 and strictly rising, and no entry equal to what an unlisted address reads
as. -/
def Memory.wf : Memory → Bool
  | [] => true
  | (k, v) :: m =>
    decide (k < 4294967296) && (v != Memory.unlistedByte) && m.all (fun c => decide (k < c.1)) && Memory.wf m

/-! Registers, flags, program counter. -/

/-- Read register `r` (R9, R22: none is hardwired). -/
def State.reg (s : State) (r : RegNum) : Half := s.regs.get r

/-- Write register `r` (R9, R22: none is hardwired). -/
def State.setReg (s : State) (r : RegNum) (v : Half) : State := { s with regs := s.regs.set r.val v r.isLt }

/-- Write bits 7:0 of register `r`; the other lane keeps its value (R24). -/
def State.setLow (s : State) (r : RegNum) (b : Byte) : State := s.setReg r (joinHalf (hiByte (s.reg r)) b)

/-- Write bits 15:8 of register `r`; the other lane keeps its value (R24). -/
def State.setHigh (s : State) (r : RegNum) (b : Byte) : State := s.setReg r (joinHalf b (loByte (s.reg r)))

/-- Write both flags. -/
def State.setFlags (s : State) (z v : Bool) : State := { s with z := z, v := v }

/-- Set the address of the next instruction (R9). -/
def State.setPc (s : State) (t : Addr) : State := { s with pc := t }

/-- Move to the instruction `len` bytes on, modulo 2^32 (R26). -/
def State.advance (s : State) (len : Nat) : State := s.setPc (s.pc + BitVec.ofNat 32 len)

/-- Count `n` free values as drawn (log 9). -/
def State.bump (s : State) (n : Nat) : State := { s with draws := s.draws + n }

/-- Enter the halted state (R31). -/
def State.halt (s : State) : State := { s with halted := true }

/-! Memory accesses. -/

/-- The address lies in one of the regions. -/
def inRegions (rs : List Region) (a : Addr) : Bool :=
  rs.any fun r => decide ((a - r.base).toNat < r.size)

/-- `mapped(a)` of R42. -/
def State.isMapped (s : State) (a : Addr) : Bool := inRegions s.params.mapped a

/-- The address lies in `TEXT` (R55). -/
def State.inText (s : State) (a : Addr) : Bool := inRegions s.params.text a

/-- The `n` addresses of an access at `a`, in order, modulo 2^32 (R43, R44). -/
def accessAddrs (a : Addr) (n : Nat) : List Addr := (List.range n).map fun k => a + BitVec.ofNat 32 k

/-- The lowest of some addresses that a test picks: the one a fault names (R43, R213). -/
def lowest (test : Addr → Bool) : List Addr → Option Addr
  | [] => none
  | a :: as =>
    match lowest test as with
    | none => if test a then some a else none
    | some b => if test a && decide (a.toNat ≤ b.toNat) then some a else some b

/-- The lowest unmapped byte of an access (R43, R56). -/
def State.lowestUnmapped (s : State) (a : Addr) (n : Nat) : Option Addr :=
  lowest (fun b => !s.isMapped b) (accessAddrs a n)

/-- The lowest byte of an access inside the program text (R55, R213). -/
def State.lowestInText (s : State) (a : Addr) (n : Nat) : Option Addr := lowest s.inText (accessAddrs a n)

/-- The byte memory holds at an address. -/
def State.byteAt (s : State) (a : Addr) : Byte := Memory.read s.mem a.toNat

/-- The halfword at `a`, most significant byte first (R43). -/
def State.halfAt (s : State) (a : Addr) : Half := joinHalf (s.byteAt a) (s.byteAt (a + 1))

/-- The word at `a`, most significant byte first (R43). -/
def State.wordAt (s : State) (a : Addr) : Word := joinWord (s.halfAt a) (s.halfAt (a + 2))

/-- The fault an `n`-byte data load at `a` meets, in the order of R213: misalignment (R49), then the lowest unmapped byte
(R43). -/
def State.loadFault (s : State) (a : Addr) (n : Nat) : Option Fault :=
  if s.params.dataAlignFault && decide (a.toNat % n ≠ 0) then some (.misalignedAccess a)
  else (s.lowestUnmapped a n).map .accessFault

/-- The fault an `n`-byte data store at `a` meets, in the order of R213: those of a load, then the lowest byte inside the
program text (R44, R55; log 19). -/
def State.storeFault (s : State) (a : Addr) (n : Nat) : Option Fault :=
  match s.loadFault a n with
  | some f => some f
  | none => (s.lowestInText a n).map .codeWrite

/-- The refusal an `n`-byte data load at `a` meets: with `UNIFIED_MEMORY = false`, a byte of the program text is not
readable as data (R41, D1, U7; log 16). -/
def State.loadRefusal (s : State) (a : Addr) (n : Nat) : Option Refusal :=
  if s.params.unifiedMemory then none else (s.lowestInText a n).map .textRead

/-- An `n`-byte data load at `a` that gives `value` where nothing stops it (R43). -/
def State.checkedLoad {α : Type} (s : State) (a : Addr) (n : Nat) (value : α) : Host.Outcome α Fault Refusal :=
  match s.loadFault a n with
  | some f => .fault f
  | none =>
    match s.loadRefusal a n with
    | some r => .refused r
    | none => .next value

/-- `MemRead(a, 1)` (R43). -/
def State.loadByte (s : State) (a : Addr) : Host.Outcome Byte Fault Refusal := s.checkedLoad a 1 (s.byteAt a)

/-- `MemRead(a, 2)` (R43). -/
def State.loadHalf (s : State) (a : Addr) : Host.Outcome Half Fault Refusal := s.checkedLoad a 2 (s.halfAt a)

/-- `MemRead(a, 4)` (R43). -/
def State.loadWord (s : State) (a : Addr) : Host.Outcome Word Fault Refusal := s.checkedLoad a 4 (s.wordAt a)

/-- Store bytes at consecutive addresses from `a`: all of them, or none where the access is stopped (R44). -/
def State.storeBytes (s : State) (a : Addr) (bs : List Byte) : Host.Outcome State Fault Refusal :=
  match s.storeFault a bs.length with
  | some f => .fault f
  | none => .next { s with mem := Memory.writeBytes s.mem a bs }

/-- `MemWrite(a, 1, v)` (R44). -/
def State.storeByte (s : State) (a : Addr) (v : Byte) : Host.Outcome State Fault Refusal := s.storeBytes a [v]

/-- `MemWrite(a, 2, v)` (R44). -/
def State.storeHalf (s : State) (a : Addr) (v : Half) : Host.Outcome State Fault Refusal := s.storeBytes a (halfBytes v)

/-- `MemWrite(a, 4, v)` (R44). -/
def State.storeWord (s : State) (a : Addr) (v : Word) : Host.Outcome State Fault Refusal := s.storeBytes a (wordBytes v)

/-! Two values for one instruction's destinations, and the R14 stack. -/

/-- `anyof(x, y)` (R9, D12): one of the two, the model does not say which. -/
def State.anyof (s : State) (site : AnyofSite) (x y : Half) : Half :=
  if Config.anyofFirst site s.draws x y then x else y

/-- Write `x` to register `d` and `y` to register `e`. Where one register is named twice it ends with `anyof` the two
values (R10, D12), a free choice that is counted. -/
def State.writePair (s : State) (site : AnyofSite) (d e : RegNum) (x y : Half) : State :=
  if d = e then (s.setReg d (s.anyof site x y)).bump 1 else (s.setReg d x).setReg e y

/-- R14, the stack pointer of PSH, POP, JSR and RTS (R23). -/
def spReg : RegNum := 14

/-- The stack address of a pointer value: zero-extended to 32 bits (R50 (c), R186). -/
def stackAddr (sp : Half) : Addr := sp.setWidth 32

/-- Push a halfword: store at R14, then subtract 2 from R14 modulo 2^16 (R186, R187, R191). -/
def State.pushHalf (s : State) (v : Half) : Host.Outcome State Fault Refusal :=
  andThen (s.storeHalf (stackAddr (s.reg spReg)) v) fun t => .next (t.setReg spReg (s.reg spReg - 2))

/-- The stack pointer a pop reads through and leaves behind: R14 plus 2 modulo 2^16 (R186, R188, R192). -/
def State.popPointer (s : State) : Half := s.reg spReg + 2

/-- The halfword a pop loads, at the incremented pointer (R188, R192). -/
def State.popHalf (s : State) : Host.Outcome Half Fault Refusal := s.loadHalf (stackAddr s.popPointer)

end Sys2Proof.Machine
end

