-- ==== Sys2Proof/Machine/Operands.lean ====
section
/-! DEFINITION. The operand forms: the ALU's operation and second operand (R100, R126), effective addresses (R50), branch
conditions (R170), and the roles of the long multiplies' register bytes (R183). -/

namespace Sys2Proof.Machine

/-- The eight operations of the ALU family (R126). -/
inductive AluOp where
  | add
  | sub
  | mul
  | and
  | or
  | xor
  | lsh
  | rsh
deriving DecidableEq, Repr

/-- The shift amount: bits 4:0 of the operand (R101). -/
def shiftAmount (b : Half) : BitVec 5 := b.setWidth 5

/-- The 16-bit result of an operation on `rd`'s value `a` and the operand `b` (R126). -/
def aluResult (op : AluOp) (a b : Half) : Half :=
  match op with
  | .add => a + b
  | .sub => if b ≤ a then a - b else 0
  | .mul => a * b
  | .and => a &&& b
  | .or => a ||| b
  | .xor => a ^^^ b
  | .lsh => a <<< (shiftAmount b).toNat
  | .rsh => a >>> (shiftAmount b).toNat

/-- The address of a base plus offset form: the base register zero-extended, plus the 32-bit offset, modulo 2^32
(R50 (b)). -/
def State.effAddr (s : State) (rn : RegNum) (off : Word) : Addr := (s.reg rn).setWidth 32 + off

/-- The registers of a long multiply by role: two sources, and where the product's halves go. -/
structure MulRegs where
  srcA : RegNum
  srcB : RegNum
  high : RegNum
  low : RegNum
deriving DecidableEq, Repr

/-- The role of each register byte, by `MULL_ROLES` (R180, the table of R183); `b2`, `b3`, `b4` are the registers of
bytes 2, 3 and 4. -/
def mulRegs (roles : MullRoles) (b2 b3 b4 : RegNum) : MulRegs :=
  match roles with
  | .operationLine => ⟨b2, b3, b2, b4⟩
  | .exampleIdentity => ⟨b3, b4, b3, b2⟩
  | .exampleRdRn1 => ⟨b4, b3, b4, b2⟩

/-- UMULL's product: exact and unsigned, 32 bits (R181). -/
def umullProduct (a b : Half) : Word := BitVec.ofNat 32 (a.toNat * b.toNat)

/-- SMULL's product: of the two's-complement values, as a 32-bit pattern (R182). -/
def smullProduct (a b : Half) : Word := BitVec.ofInt 32 (a.toInt * b.toInt)

end Sys2Proof.Machine
end

