-- ==== Sys2Proof/Machine/Flags.lean ====
section
/-! DEFINITION. The flag computations: Z (R28) and V (R29), and how many free values an operation draws. -/

namespace Sys2Proof.Machine

/-- Z of the eight ALU operations: the 16-bit value written to `rd` is zero (R28). -/
def zeroHalf (r : Half) : Bool := r == 0

/-- Z of UMULL and SMULL: the whole 32-bit product is zero (R28). -/
def zeroWord (p : Word) : Bool := p == 0

/-- V of an ALU operation on `a` and the operand `b` (R29, R126): the exact sum or product exceeds 0xFFFF, 0 for the
logic operations, and a free value, of draw number `draw`, for SUB and the shifts (D10; log 6). -/
def aluOverflow (op : AluOp) (draw : Nat) (a b : Half) : Bool :=
  match op with
  | .add => decide (a.toNat + b.toNat > 65535)
  | .sub => Config.flagVSub draw a b
  | .mul => decide (a.toNat * b.toNat > 65535)
  | .and => false
  | .or => false
  | .xor => false
  | .lsh => Config.flagVLsh draw a (shiftAmount b)
  | .rsh => Config.flagVRsh draw a (shiftAmount b)

/-- How many free values an ALU operation draws (log 9). -/
def aluDraws (op : AluOp) : Nat :=
  match op with
  | .add => 0
  | .sub => 1
  | .mul => 0
  | .and => 0
  | .or => 0
  | .xor => 0
  | .lsh => 1
  | .rsh => 1

/-- V of UMULL: a free value (R181, D10; log 6). -/
def umullOverflow (draw : Nat) (a b : Half) : Bool := Config.flagVUmull draw a b

/-- V of SMULL: a free value (R182, D10; log 6). -/
def smullOverflow (draw : Nat) (a b : Half) : Bool := Config.flagVSmull draw a b

end Sys2Proof.Machine
end

