-- ==== Sys2Proof/Machine/Alu.lean ====
section
/-! DEFINITION. The arithmetic and logic family, opcodes 0x01 to 0x08 (R100 to R127): one meaning per form, over the
shared execution of R101. -/

namespace Sys2Proof.Machine

/-- The common execution of R101 once the operand `b` is known: result to `rd`, both flags, advance by `len`. -/
def aluApply (op : AluOp) (rd : RegNum) (b : Half) (len : Nat) (s : State) : State :=
  let a := s.reg rd
  let r := aluResult op a b
  (((s.setReg rd r).setFlags (zeroHalf r) (aluOverflow op s.draws a b)).bump (aluDraws op)).advance len

/-- Immediate mode (R100): the operand is the 16-bit immediate; 5 bytes. -/
def aluImm (op : AluOp) (rd : RegNum) (imm : Half) (s : State) : Host.Outcome State Fault Refusal :=
  .next (aluApply op rd imm 5 s)

/-- Register mode (R100): the operand is `rn`'s value before the instruction; 4 bytes. -/
def aluReg (op : AluOp) (rd rn : RegNum) (s : State) : Host.Outcome State Fault Refusal :=
  .next (aluApply op rd (s.reg rn) 4 s)

/-- Memory mode (R100): the operand is the big-endian halfword at the absolute address; 7 bytes. -/
def aluMem (op : AluOp) (rd : RegNum) (addr : Addr) (s : State) : Host.Outcome State Fault Refusal :=
  andThen (s.loadHalf addr) fun b => .next (aluApply op rd b 7 s)

/-- ADD Rd, #imm16 (R102). -/
def execAddImm (rd : RegNum) (imm : Half) (s : State) : Host.Outcome State Fault Refusal := aluImm .add rd imm s

/-- ADD Rd, Rn (R103). -/
def execAddReg (rd rn : RegNum) (s : State) : Host.Outcome State Fault Refusal := aluReg .add rd rn s

/-- ADD Rd, [addr32] (R104). -/
def execAddMem (rd : RegNum) (addr : Addr) (s : State) : Host.Outcome State Fault Refusal := aluMem .add rd addr s

/-- SUB Rd, #imm16 (R105). -/
def execSubImm (rd : RegNum) (imm : Half) (s : State) : Host.Outcome State Fault Refusal := aluImm .sub rd imm s

/-- SUB Rd, Rn (R106). -/
def execSubReg (rd rn : RegNum) (s : State) : Host.Outcome State Fault Refusal := aluReg .sub rd rn s

/-- SUB Rd, [addr32] (R107). -/
def execSubMem (rd : RegNum) (addr : Addr) (s : State) : Host.Outcome State Fault Refusal := aluMem .sub rd addr s

/-- MUL Rd, #imm16 (R108). -/
def execMulImm (rd : RegNum) (imm : Half) (s : State) : Host.Outcome State Fault Refusal := aluImm .mul rd imm s

/-- MUL Rd, Rn (R109). -/
def execMulReg (rd rn : RegNum) (s : State) : Host.Outcome State Fault Refusal := aluReg .mul rd rn s

/-- MUL Rd, [addr32] (R110). -/
def execMulMem (rd : RegNum) (addr : Addr) (s : State) : Host.Outcome State Fault Refusal := aluMem .mul rd addr s

/-- AND Rd, #imm16 (R111). -/
def execAndImm (rd : RegNum) (imm : Half) (s : State) : Host.Outcome State Fault Refusal := aluImm .and rd imm s

/-- AND Rd, Rn (R112). -/
def execAndReg (rd rn : RegNum) (s : State) : Host.Outcome State Fault Refusal := aluReg .and rd rn s

/-- AND Rd, [addr32] (R113). -/
def execAndMem (rd : RegNum) (addr : Addr) (s : State) : Host.Outcome State Fault Refusal := aluMem .and rd addr s

/-- OR Rd, #imm16 (R114). -/
def execOrImm (rd : RegNum) (imm : Half) (s : State) : Host.Outcome State Fault Refusal := aluImm .or rd imm s

/-- OR Rd, Rn (R115). -/
def execOrReg (rd rn : RegNum) (s : State) : Host.Outcome State Fault Refusal := aluReg .or rd rn s

/-- OR Rd, [addr32] (R116). -/
def execOrMem (rd : RegNum) (addr : Addr) (s : State) : Host.Outcome State Fault Refusal := aluMem .or rd addr s

/-- XOR Rd, #imm16 (R117). -/
def execXorImm (rd : RegNum) (imm : Half) (s : State) : Host.Outcome State Fault Refusal := aluImm .xor rd imm s

/-- XOR Rd, Rn (R118). -/
def execXorReg (rd rn : RegNum) (s : State) : Host.Outcome State Fault Refusal := aluReg .xor rd rn s

/-- XOR Rd, [addr32] (R119). -/
def execXorMem (rd : RegNum) (addr : Addr) (s : State) : Host.Outcome State Fault Refusal := aluMem .xor rd addr s

/-- LSH Rd, #imm16 (R120). -/
def execLshImm (rd : RegNum) (imm : Half) (s : State) : Host.Outcome State Fault Refusal := aluImm .lsh rd imm s

/-- LSH Rd, Rn (R121). -/
def execLshReg (rd rn : RegNum) (s : State) : Host.Outcome State Fault Refusal := aluReg .lsh rd rn s

/-- LSH Rd, [addr32] (R122). -/
def execLshMem (rd : RegNum) (addr : Addr) (s : State) : Host.Outcome State Fault Refusal := aluMem .lsh rd addr s

/-- RSH Rd, #imm16 (R123). -/
def execRshImm (rd : RegNum) (imm : Half) (s : State) : Host.Outcome State Fault Refusal := aluImm .rsh rd imm s

/-- RSH Rd, Rn (R124). -/
def execRshReg (rd rn : RegNum) (s : State) : Host.Outcome State Fault Refusal := aluReg .rsh rd rn s

/-- RSH Rd, [addr32] (R125). -/
def execRshMem (rd : RegNum) (addr : Addr) (s : State) : Host.Outcome State Fault Refusal := aluMem .rsh rd addr s

end Sys2Proof.Machine
end

