-- ==== Sys2Proof/Machine/Branch.lean ====
section
/-! DEFINITION. Branches, opcodes 0x0A to 0x0F (R170 to R177). Targets are absolute; no branch writes a register, a flag or
memory, and there is no delay slot. -/

namespace Sys2Proof.Machine

/-- Go to the target where the condition holds, else on by `len` bytes (R170). -/
def branchIf (cond : Bool) (target : Addr) (len : Nat) (s : State) : Host.Outcome State Fault Refusal :=
  .next (if cond then s.setPc target else s.advance len)

/-- B target32 (R171). -/
def execB (target : Addr) (s : State) : Host.Outcome State Fault Refusal := .next (s.setPc target)

/-- BE Rd, Rn, target32 (R172). -/
def execBe (rd rn : RegNum) (target : Addr) (s : State) : Host.Outcome State Fault Refusal :=
  branchIf (s.reg rd == s.reg rn) target 8 s

/-- BNE Rd, Rn, target32 (R173). -/
def execBne (rd rn : RegNum) (target : Addr) (s : State) : Host.Outcome State Fault Refusal :=
  branchIf (s.reg rd != s.reg rn) target 8 s

/-- BLT Rd, Rn, target32, unsigned (R174). -/
def execBlt (rd rn : RegNum) (target : Addr) (s : State) : Host.Outcome State Fault Refusal :=
  branchIf (decide ((s.reg rd).toNat < (s.reg rn).toNat)) target 8 s

/-- BGT Rd, Rn, target32, unsigned (R175). -/
def execBgt (rd rn : RegNum) (target : Addr) (s : State) : Host.Outcome State Fault Refusal :=
  branchIf (decide ((s.reg rd).toNat > (s.reg rn).toNat)) target 8 s

/-- BRO target32: tests V and leaves it (R176). -/
def execBro (target : Addr) (s : State) : Host.Outcome State Fault Refusal := branchIf s.v target 6 s

end Sys2Proof.Machine
end

