-- ==== Sys2Proof/Machine/Mov.lean ====
section
/-! DEFINITION. Data movement, opcode 0x09 (R140 to R160): 19 meanings. The forms with an offset are those with an absolute
address, with the address of R50 (b) in place of the field and one more byte or register byte. No form writes a flag. -/

namespace Sys2Proof.Machine

/-- Load a byte into bits 7:0 of `rd`, then advance (R144, R152). -/
def movLoadLow (rd : RegNum) (a : Addr) (len : Nat) (s : State) : Host.Outcome State Fault Refusal :=
  andThen (s.loadByte a) fun b => .next ((s.setLow rd b).advance len)

/-- Load a byte into bits 15:8 of `rd`, then advance (R145, R153). -/
def movLoadHigh (rd : RegNum) (a : Addr) (len : Nat) (s : State) : Host.Outcome State Fault Refusal :=
  andThen (s.loadByte a) fun b => .next ((s.setHigh rd b).advance len)

/-- Load a halfword into `rd`, then advance (R146, R154). -/
def movLoadHalf (rd : RegNum) (a : Addr) (len : Nat) (s : State) : Host.Outcome State Fault Refusal :=
  andThen (s.loadHalf a) fun h => .next ((s.setReg rd h).advance len)

/-- Load a word into a pair, bits 31:16 to the first, then advance (R147, R155). -/
def movLoadPair (site : AnyofSite) (rd re : RegNum) (a : Addr) (len : Nat) (s : State) :
    Host.Outcome State Fault Refusal :=
  andThen (s.loadWord a) fun w => .next ((s.writePair site rd re (hiHalf w) (loHalf w)).advance len)

/-- Store a byte, then advance (R148, R149, R156, R157). -/
def movStoreByte (a : Addr) (b : Byte) (len : Nat) (s : State) : Host.Outcome State Fault Refusal :=
  andThen (s.storeByte a b) fun t => .next (t.advance len)

/-- Store a halfword, then advance (R150, R158). -/
def movStoreHalf (a : Addr) (h : Half) (len : Nat) (s : State) : Host.Outcome State Fault Refusal :=
  andThen (s.storeHalf a h) fun t => .next (t.advance len)

/-- Store a word, then advance (R151, R159). -/
def movStoreWord (a : Addr) (w : Word) (len : Nat) (s : State) : Host.Outcome State Fault Refusal :=
  andThen (s.storeWord a w) fun t => .next (t.advance len)

/-- MOV Rd, #imm16 (R141). -/
def execMovImm (rd : RegNum) (imm : Half) (s : State) : Host.Outcome State Fault Refusal :=
  .next ((s.setReg rd imm).advance 5)

/-- MOV Rd, Rn, #imm32 (R142). -/
def execMovImmPair (rd rn : RegNum) (imm : Word) (s : State) : Host.Outcome State Fault Refusal :=
  .next ((s.writePair .movImmPair rd rn (hiHalf imm) (loHalf imm)).advance 8)

/-- MOV Rd, Rn (R143). -/
def execMovReg (rd rn : RegNum) (s : State) : Host.Outcome State Fault Refusal :=
  .next ((s.setReg rd (s.reg rn)).advance 4)

/-- MOV Rd.L, [addr32] (R144). -/
def execMovLdLow (rd : RegNum) (addr : Addr) (s : State) : Host.Outcome State Fault Refusal :=
  movLoadLow rd addr 7 s

/-- MOV Rd.H, [addr32] (R145). -/
def execMovLdHigh (rd : RegNum) (addr : Addr) (s : State) : Host.Outcome State Fault Refusal :=
  movLoadHigh rd addr 7 s

/-- MOV Rd, [addr32] (R146). -/
def execMovLdHalf (rd : RegNum) (addr : Addr) (s : State) : Host.Outcome State Fault Refusal :=
  movLoadHalf rd addr 7 s

/-- MOV Rd, Rn1, [addr32] (R147). -/
def execMovLdPair (rd rn1 : RegNum) (addr : Addr) (s : State) : Host.Outcome State Fault Refusal :=
  movLoadPair .movLdPair rd rn1 addr 8 s

/-- MOV [addr32], Rd.L (R148). -/
def execMovStLow (rd : RegNum) (addr : Addr) (s : State) : Host.Outcome State Fault Refusal :=
  movStoreByte addr (loByte (s.reg rd)) 7 s

/-- MOV [addr32], Rd.H (R149). -/
def execMovStHigh (rd : RegNum) (addr : Addr) (s : State) : Host.Outcome State Fault Refusal :=
  movStoreByte addr (hiByte (s.reg rd)) 7 s

/-- MOV [addr32], Rd (R150). -/
def execMovStHalf (rd : RegNum) (addr : Addr) (s : State) : Host.Outcome State Fault Refusal :=
  movStoreHalf addr (s.reg rd) 7 s

/-- MOV [addr32], Rd, Rn1 (R151). -/
def execMovStPair (rd rn1 : RegNum) (addr : Addr) (s : State) : Host.Outcome State Fault Refusal :=
  movStoreWord addr (joinWord (s.reg rd) (s.reg rn1)) 8 s

/-- MOV Rd.L, [Rn + offset32] (R152). -/
def execMovLdLowOff (rd rn : RegNum) (off : Word) (s : State) : Host.Outcome State Fault Refusal :=
  movLoadLow rd (s.effAddr rn off) 8 s

/-- MOV Rd.H, [Rn + offset32] (R153). -/
def execMovLdHighOff (rd rn : RegNum) (off : Word) (s : State) : Host.Outcome State Fault Refusal :=
  movLoadHigh rd (s.effAddr rn off) 8 s

/-- MOV Rd, [Rn + offset32] (R154). -/
def execMovLdHalfOff (rd rn : RegNum) (off : Word) (s : State) : Host.Outcome State Fault Refusal :=
  movLoadHalf rd (s.effAddr rn off) 8 s

/-- MOV Rd, Rd1, [Rn + offset32] (R155). -/
def execMovLdPairOff (rd rd1 rn : RegNum) (off : Word) (s : State) : Host.Outcome State Fault Refusal :=
  movLoadPair .movLdPairOff rd rd1 (s.effAddr rn off) 9 s

/-- MOV [Rn + offset32], Rd.L (R156). -/
def execMovStLowOff (rd rn : RegNum) (off : Word) (s : State) : Host.Outcome State Fault Refusal :=
  movStoreByte (s.effAddr rn off) (loByte (s.reg rd)) 8 s

/-- MOV [Rn + offset32], Rd.H (R157). -/
def execMovStHighOff (rd rn : RegNum) (off : Word) (s : State) : Host.Outcome State Fault Refusal :=
  movStoreByte (s.effAddr rn off) (hiByte (s.reg rd)) 8 s

/-- MOV [Rn + offset32], Rd (R158). -/
def execMovStHalfOff (rd rn : RegNum) (off : Word) (s : State) : Host.Outcome State Fault Refusal :=
  movStoreHalf (s.effAddr rn off) (s.reg rd) 8 s

/-- MOV [Rn + offset32], Rd, Rd1 (R159). -/
def execMovStPairOff (rd rd1 rn : RegNum) (off : Word) (s : State) : Host.Outcome State Fault Refusal :=
  movStoreWord (s.effAddr rn off) (joinWord (s.reg rd) (s.reg rd1)) 9 s

end Sys2Proof.Machine
end

