-- ==== Sys2Proof/Machine/Multiply.lean ====
section
/-! DEFINITION. Long multiplies, opcodes 0x10 and 0x11 (R180 to R183), with `MULL_ROLES` as a parameter. Under
`MULL_LEN = 4` the decoder admits neither (R183), so the meanings advance by 5 bytes. -/

namespace Sys2Proof.Machine

/-- Write a 32-bit product: its halves to the two destinations, Z of the whole product, V as given, advance by 5 bytes
(R180). One free value, V, is drawn. -/
def mulApply (site : AnyofSite) (r : MulRegs) (p : Word) (v : Bool) (s : State) : State :=
  (((s.writePair site r.high r.low (hiHalf p) (loHalf p)).setFlags (zeroWord p) v).bump 1).advance 5

/-- UMULL (R181). -/
def execUmull (rd rn rn1 : RegNum) (s : State) : Host.Outcome State Fault Refusal :=
  let r := mulRegs s.params.mullRoles rd rn rn1
  let a := s.reg r.srcA
  let b := s.reg r.srcB
  .next (mulApply .umull r (umullProduct a b) (umullOverflow s.draws a b) s)

/-- SMULL (R182). -/
def execSmull (rd rn rn1 : RegNum) (s : State) : Host.Outcome State Fault Refusal :=
  let r := mulRegs s.params.mullRoles rd rn rn1
  let a := s.reg r.srcA
  let b := s.reg r.srcB
  .next (mulApply .smull r (smullProduct a b) (smullOverflow s.draws a b) s)

end Sys2Proof.Machine
end

