-- ==== Sys2Proof/Machine/Stack.lean ====
section
/-! DEFINITION. Stack operations, opcodes 0x13 and 0x14 (R186 to R188). -/

namespace Sys2Proof.Machine

/-- PSH Rd (R187): the value pushed is `rd`'s before the decrement, also for R14. -/
def execPsh (rd : RegNum) (s : State) : Host.Outcome State Fault Refusal :=
  andThen (s.pushHalf (s.reg rd)) fun t => .next (t.advance 3)

/-- POP Rd (R188); `POP R14` leaves R14 with `anyof` the popped value and the incremented pointer (D12). -/
def execPop (rd : RegNum) (s : State) : Host.Outcome State Fault Refusal :=
  andThen s.popHalf fun v => .next ((s.writePair .pop rd spReg v s.popPointer).advance 3)

end Sys2Proof.Machine
end

