-- ==== Sys2Proof/Machine/Subroutine.lean ====
section
/-! DEFINITION. Subroutine instructions, opcodes 0x15 and 0x16 (R190 to R192), with `RETADDR_MODE` as a parameter. -/

namespace Sys2Proof.Machine

/-- The address of the instruction after JSR (R191). -/
def State.returnAddr (s : State) : Addr := s.pc + 6

/-- JSR target32 (R191): a return address above 0xFFFF is `Unpredictable` before anything is stored; under `word32` the
spec defines no stack layout (R190). -/
def execJsr (target : Addr) (s : State) : Host.Outcome State Fault Refusal :=
  match s.params.retaddrMode with
  | .word32 => .refused .returnAddressLayout
  | .half16 =>
    if hiHalf s.returnAddr = 0 then andThen (s.pushHalf (loHalf s.returnAddr)) fun t => .next (t.setPc target)
    else .fault (.unpredictable "JSR return address above 0xFFFF")

/-- RTS (R192): the popped halfword, zero-extended, becomes `pc`; under `word32` the spec defines no stack layout
(R190). -/
def execRts (s : State) : Host.Outcome State Fault Refusal :=
  match s.params.retaddrMode with
  | .word32 => .refused .returnAddressLayout
  | .half16 => andThen s.popHalf fun v => .next ((s.setReg spReg s.popPointer).setPc (v.setWidth 32))

end Sys2Proof.Machine
end

