-- ==== Sys2Proof/Machine/System.lean ====
section
/-! DEFINITION. System control, opcodes 0x00, 0x12, 0x17 to 0x19 (R195 to R199). WFI, ENI and DSI are no-operations at
this revision. -/

namespace Sys2Proof.Machine

/-- NOP (R195). -/
def execNop (s : State) : Host.Outcome State Fault Refusal := .next (s.advance 2)

/-- HLT (R196): the halted bit is set; `pc` in the halted state is a free value (R238, D18; log 8). -/
def execHlt (s : State) : Host.Outcome State Fault Refusal :=
  .next ((s.halt.setPc (Config.haltPc s.draws s.pc)).bump 1)

/-- WFI, a no-operation at this revision: it does not wait (R197). -/
def execWfi (s : State) : Host.Outcome State Fault Refusal := .next (s.advance 2)

/-- ENI, a no-operation at this revision: there is no interrupt-enable bit (R198). -/
def execEni (s : State) : Host.Outcome State Fault Refusal := .next (s.advance 2)

/-- DSI, a no-operation at this revision (R199). -/
def execDsi (s : State) : Host.Outcome State Fault Refusal := .next (s.advance 2)

end Sys2Proof.Machine
end

