-- ==== Sys2Proof/Machine/Dispatch.lean ====
section
/-! DEFINITION. exec: one arm per constructor of Instr, each one direct call of that instruction's meaning. -/

namespace Sys2Proof.Machine

def exec (i : Instr) (s : State) : Host.Outcome State Fault Refusal :=
  match i with
  | .nop => Sys2Proof.Machine.execNop s
  | .addImm rd imm => Sys2Proof.Machine.execAddImm rd imm s
  | .addReg rd rn => Sys2Proof.Machine.execAddReg rd rn s
  | .addMem rd addr => Sys2Proof.Machine.execAddMem rd addr s
  | .subImm rd imm => Sys2Proof.Machine.execSubImm rd imm s
  | .subReg rd rn => Sys2Proof.Machine.execSubReg rd rn s
  | .subMem rd addr => Sys2Proof.Machine.execSubMem rd addr s
  | .mulImm rd imm => Sys2Proof.Machine.execMulImm rd imm s
  | .mulReg rd rn => Sys2Proof.Machine.execMulReg rd rn s
  | .mulMem rd addr => Sys2Proof.Machine.execMulMem rd addr s
  | .andImm rd imm => Sys2Proof.Machine.execAndImm rd imm s
  | .andReg rd rn => Sys2Proof.Machine.execAndReg rd rn s
  | .andMem rd addr => Sys2Proof.Machine.execAndMem rd addr s
  | .orImm rd imm => Sys2Proof.Machine.execOrImm rd imm s
  | .orReg rd rn => Sys2Proof.Machine.execOrReg rd rn s
  | .orMem rd addr => Sys2Proof.Machine.execOrMem rd addr s
  | .xorImm rd imm => Sys2Proof.Machine.execXorImm rd imm s
  | .xorReg rd rn => Sys2Proof.Machine.execXorReg rd rn s
  | .xorMem rd addr => Sys2Proof.Machine.execXorMem rd addr s
  | .lshImm rd imm => Sys2Proof.Machine.execLshImm rd imm s
  | .lshReg rd rn => Sys2Proof.Machine.execLshReg rd rn s
  | .lshMem rd addr => Sys2Proof.Machine.execLshMem rd addr s
  | .rshImm rd imm => Sys2Proof.Machine.execRshImm rd imm s
  | .rshReg rd rn => Sys2Proof.Machine.execRshReg rd rn s
  | .rshMem rd addr => Sys2Proof.Machine.execRshMem rd addr s
  | .movImm rd imm => Sys2Proof.Machine.execMovImm rd imm s
  | .movImmPair rd rn imm => Sys2Proof.Machine.execMovImmPair rd rn imm s
  | .movReg rd rn => Sys2Proof.Machine.execMovReg rd rn s
  | .movLdLow rd addr => Sys2Proof.Machine.execMovLdLow rd addr s
  | .movLdHigh rd addr => Sys2Proof.Machine.execMovLdHigh rd addr s
  | .movLdHalf rd addr => Sys2Proof.Machine.execMovLdHalf rd addr s
  | .movLdPair rd rn1 addr => Sys2Proof.Machine.execMovLdPair rd rn1 addr s
  | .movStLow rd addr => Sys2Proof.Machine.execMovStLow rd addr s
  | .movStHigh rd addr => Sys2Proof.Machine.execMovStHigh rd addr s
  | .movStHalf rd addr => Sys2Proof.Machine.execMovStHalf rd addr s
  | .movStPair rd rn1 addr => Sys2Proof.Machine.execMovStPair rd rn1 addr s
  | .movLdLowOff rd rn off => Sys2Proof.Machine.execMovLdLowOff rd rn off s
  | .movLdHighOff rd rn off => Sys2Proof.Machine.execMovLdHighOff rd rn off s
  | .movLdHalfOff rd rn off => Sys2Proof.Machine.execMovLdHalfOff rd rn off s
  | .movLdPairOff rd rd1 rn off => Sys2Proof.Machine.execMovLdPairOff rd rd1 rn off s
  | .movStLowOff rd rn off => Sys2Proof.Machine.execMovStLowOff rd rn off s
  | .movStHighOff rd rn off => Sys2Proof.Machine.execMovStHighOff rd rn off s
  | .movStHalfOff rd rn off => Sys2Proof.Machine.execMovStHalfOff rd rn off s
  | .movStPairOff rd rd1 rn off => Sys2Proof.Machine.execMovStPairOff rd rd1 rn off s
  | .b target => Sys2Proof.Machine.execB target s
  | .be rd rn target => Sys2Proof.Machine.execBe rd rn target s
  | .bne rd rn target => Sys2Proof.Machine.execBne rd rn target s
  | .blt rd rn target => Sys2Proof.Machine.execBlt rd rn target s
  | .bgt rd rn target => Sys2Proof.Machine.execBgt rd rn target s
  | .bro target => Sys2Proof.Machine.execBro target s
  | .umull rd rn rn1 => Sys2Proof.Machine.execUmull rd rn rn1 s
  | .smull rd rn rn1 => Sys2Proof.Machine.execSmull rd rn rn1 s
  | .hlt => Sys2Proof.Machine.execHlt s
  | .psh rd => Sys2Proof.Machine.execPsh rd s
  | .pop rd => Sys2Proof.Machine.execPop rd s
  | .jsr target => Sys2Proof.Machine.execJsr target s
  | .rts => Sys2Proof.Machine.execRts s
  | .wfi => Sys2Proof.Machine.execWfi s
  | .eni => Sys2Proof.Machine.execEni s
  | .dsi => Sys2Proof.Machine.execDsi s

end Sys2Proof.Machine
end

