-- ==== Sys2Proof/Machine/Fetch.lean ====
section
/-! DEFINITION. Fetching and decoding the instruction at `pc` (R45, R56, R72), in the fault order of R213. -/

namespace Sys2Proof.Machine

/-- `Fetch(a)`: one instruction byte (R45, R56). -/
def State.fetchByte (s : State) (a : Addr) : Host.Outcome Byte Fault Refusal :=
  if s.isMapped a then .next (s.byteAt a) else .fault (.accessFault a)

/-- `n` instruction bytes from `a` on, modulo 2^32; the lowest unmapped one is the fault's (R56, R213). -/
def State.fetchBytes (s : State) (a : Addr) (n : Nat) : Host.Outcome (List Byte) Fault Refusal :=
  match s.lowestUnmapped a n with
  | some b => .fault (.accessFault b)
  | none => .next ((accessAddrs a n).map s.byteAt)

/-- The instruction at `pc` (R72, R213): bytes 0 and 1, then the pair, then the remaining bytes, then the register
bytes. -/
def State.fetchInstr (s : State) : Host.Outcome Instr Fault Refusal :=
  andThen (s.fetchByte s.pc) fun b0 =>
  andThen (s.fetchByte (s.pc + 1)) fun b1 =>
  match opcodeForm b1.toNat b0.toNat with
  | none => .fault (.undefinedInstruction s.pc b0 b1)
  | some form =>
    if layoutKnown s.params form then
      andThen (s.fetchBytes (s.pc + 2) (form.length - 2)) fun ops =>
      match readOperands s.params form ops with
      | some (i, _) => .next i
      | none => .fault (.undefinedInstruction s.pc b0 b1)
    else .refused .longMultiplyLayout

end Sys2Proof.Machine
end

