-- ==== Sys2Proof/Machine/Load.lean ====
section
/-! DEFINITION. Loading a program and the start of a run (R231): what the platform does before the first instruction. -/

namespace Sys2Proof.Machine

/-- Place instruction bytes from `a` on, modulo 2^32, and mark exactly them as program text, beside what is marked
already (R7, R55, R231). -/
def State.load (s : State) (a : Addr) (bs : List Byte) : State :=
  { s with
    mem := Memory.writeBytes s.mem a bs
    params := { s.params with text := ⟨a, bs.length⟩ :: s.params.text } }

/-- Place a listing: runs of instruction bytes, each with the address of its first. -/
def State.loadProgram (s : State) : List (Addr × List Byte) → State
  | [] => s
  | c :: cs => State.loadProgram (s.load c.1 c.2) cs

/-- The start of a run (R231): a reset state over the data the platform loaded, with the program's bytes placed and `TEXT`
equal to the set of their addresses. -/
def State.startOfRun (params : Params) (resetPc : Addr) (resetRegs : Vector Half 16) (resetZ resetV : Bool)
    (data : Memory) (program : List (Addr × List Byte)) : State :=
  (State.boot { params with text := [] } resetPc resetRegs resetZ resetV data).loadProgram program

end Sys2Proof.Machine
end

