-- ==== Sys2Proof/Machine/Step.lean ====
section
/-! DEFINITION. One step of the machine (R11, R72, R222), and a state with an instruction placed where it is fetched. -/

namespace Sys2Proof.Machine

/-- One step: fetch and decode at `pc`, then the instruction's rule. A halted machine is stuck: it has no successor
(R31, R222). -/
def step (s : State) : Host.Outcome State Fault Refusal :=
  if s.halted then .fault .halted else andThen s.fetchInstr fun i => exec i s

/-- The state with the instruction of bits `w` loaded at `pc`: nine bytes, the longest instruction (R64). It is a load as
the platform makes it, so the bytes are program text (R55, R231; log 2, 23). -/
def State.withFetchWord (s : State) (nbits w : Nat) : State := s.load s.pc (tableBytes (w % 2 ^ nbits) 9)

end Sys2Proof.Machine
end

