-- ==== Sys2Proof/Safety.lean ====
section
/-! DEFINITION. What counts as a safe run, in the terms the claims use: the invariant, when a data access completes, what
an instruction may write, and frames ("everything else is unchanged"). -/

namespace Sys2Proof.Machine

/-! The invariant. -/

/-- Memory is in its canonical form and lists only addresses that the platform maps (R40, R42). -/
def State.Inv (s : State) : Prop :=
  Memory.wf s.mem = true ∧ ∀ c ∈ s.mem, s.isMapped (BitVec.ofNat 32 c.1) = true

/-! When a data access completes. -/

/-- An `n`-byte data load at `a` completes: aligned if `DATA_ALIGN_FAULT` asks for it (R49), every byte mapped (R43), and
no byte in the program text if `UNIFIED_MEMORY` is off (R41). -/
def State.Readable (s : State) (a : Addr) (n : Nat) : Prop :=
  (s.params.dataAlignFault = true → a.toNat % n = 0) ∧
  (∀ k, k < n → s.isMapped (a + BitVec.ofNat 32 k) = true) ∧
  (s.params.unifiedMemory = false → ∀ k, k < n → s.inText (a + BitVec.ofNat 32 k) = false)

/-- An `n`-byte data store at `a` completes: aligned if `DATA_ALIGN_FAULT` asks for it (R49), every byte mapped (R44) and
none in the program text (R55). -/
def State.Writable (s : State) (a : Addr) (n : Nat) : Prop :=
  (s.params.dataAlignFault = true → a.toNat % n = 0) ∧
  (∀ k, k < n → s.isMapped (a + BitVec.ofNat 32 k) = true) ∧
  (∀ k, k < n → s.inText (a + BitVec.ofNat 32 k) = false)

end Sys2Proof.Machine

namespace Sys2Proof

open Machine

/-! What an instruction may read or write. -/

/-- The instructions that write Z and V (R27). -/
def Instr.writesFlags : Instr → Bool
  | .addImm _ _ | .addReg _ _ | .addMem _ _ | .subImm _ _ | .subReg _ _ | .subMem _ _
  | .mulImm _ _ | .mulReg _ _ | .mulMem _ _ | .andImm _ _ | .andReg _ _ | .andMem _ _
  | .orImm _ _ | .orReg _ _ | .orMem _ _ | .xorImm _ _ | .xorReg _ _ | .xorMem _ _
  | .lshImm _ _ | .lshReg _ _ | .lshMem _ _ | .rshImm _ _ | .rshReg _ _ | .rshMem _ _
  | .umull _ _ _ | .smull _ _ _ => true
  | _ => false

/-- The instructions that can set `pc` to something other than the next sequential address (R26, R177). -/
def Instr.transfersControl : Instr → Bool
  | .b _ | .be _ _ _ | .bne _ _ _ | .blt _ _ _ | .bgt _ _ _ | .bro _ | .jsr _ | .rts => true
  | _ => false

/-- The registers an instruction writes: its destinations, and R14 where it moves the stack (R23, R101, R140, R183). -/
def Instr.regsWritten (roles : MullRoles) : Instr → List RegNum
  | .addImm rd _ | .addReg rd _ | .addMem rd _ | .subImm rd _ | .subReg rd _ | .subMem rd _
  | .mulImm rd _ | .mulReg rd _ | .mulMem rd _ | .andImm rd _ | .andReg rd _ | .andMem rd _
  | .orImm rd _ | .orReg rd _ | .orMem rd _ | .xorImm rd _ | .xorReg rd _ | .xorMem rd _
  | .lshImm rd _ | .lshReg rd _ | .lshMem rd _ | .rshImm rd _ | .rshReg rd _ | .rshMem rd _
  | .movImm rd _ | .movReg rd _ | .movLdLow rd _ | .movLdHigh rd _ | .movLdHalf rd _
  | .movLdLowOff rd _ _ | .movLdHighOff rd _ _ | .movLdHalfOff rd _ _ => [rd]
  | .movImmPair rd re _ | .movLdPair rd re _ | .movLdPairOff rd re _ _ => [rd, re]
  | .umull b2 b3 b4 | .smull b2 b3 b4 =>
    match roles with
    | .operationLine => [b2, b4]
    | .exampleIdentity => [b3, b2]
    | .exampleRdRn1 => [b4, b2]
  | .psh _ | .jsr _ | .rts => [14]
  | .pop rd => [rd, 14]
  | _ => []

/-- The address and the number of bytes an instruction's data load reads, where it has one (R46, R50). -/
def Instr.loadTarget (s : State) : Instr → Option (Addr × Nat)
  | .addMem _ a | .subMem _ a | .mulMem _ a | .andMem _ a | .orMem _ a | .xorMem _ a | .lshMem _ a | .rshMem _ a
  | .movLdHalf _ a => some (a, 2)
  | .movLdLow _ a | .movLdHigh _ a => some (a, 1)
  | .movLdPair _ _ a => some (a, 4)
  | .movLdLowOff _ rn off | .movLdHighOff _ rn off => some (s.effAddr rn off, 1)
  | .movLdHalfOff _ rn off => some (s.effAddr rn off, 2)
  | .movLdPairOff _ _ rn off => some (s.effAddr rn off, 4)
  | .pop _ | .rts => some (stackAddr s.popPointer, 2)
  | _ => none

/-- The address and the number of bytes an instruction stores to, where it stores (R46, R50). -/
def Instr.storeTarget (s : State) : Instr → Option (Addr × Nat)
  | .movStLow _ a | .movStHigh _ a => some (a, 1)
  | .movStHalf _ a => some (a, 2)
  | .movStPair _ _ a => some (a, 4)
  | .movStLowOff _ rn off | .movStHighOff _ rn off => some (s.effAddr rn off, 1)
  | .movStHalfOff _ rn off => some (s.effAddr rn off, 2)
  | .movStPairOff _ _ rn off => some (s.effAddr rn off, 4)
  | .psh _ | .jsr _ => some (stackAddr (s.reg spReg), 2)
  | _ => none

/-- How many register bytes follow the opcode byte in a format (R65). -/
def Form.regBytes : Form → Nat
  | .n _ | .a _ => 0
  | .r _ | .ri _ | .ra _ => 1
  | .rr _ | .rra _ => 2
  | .rrr _ | .rrra _ => 3

end Sys2Proof

namespace Sys2Proof.Machine

/-! Frames. -/

/-- Every register but those listed is unchanged. -/
def RegsSameExcept (s t : State) (rs : List RegNum) : Prop := ∀ r, r ∉ rs → t.reg r = s.reg r

/-- Every byte of memory is unchanged. -/
def MemSame (s t : State) : Prop := ∀ a, t.byteAt a = s.byteAt a

/-- Every byte of memory outside the `n` bytes at `a` is unchanged. -/
def MemSameOutside (s t : State) (a : Addr) (n : Nat) : Prop :=
  ∀ c, (∀ k, k < n → c ≠ a + BitVec.ofNat 32 k) → t.byteAt c = s.byteAt c

/-- Both flags are unchanged. -/
def FlagsSame (s t : State) : Prop := t.z = s.z ∧ t.v = s.v

/-- The halted bit and the parameters are unchanged. -/
def ControlSame (s t : State) : Prop := t.halted = s.halted ∧ t.params = s.params

/-- `pc` moved on by `len` bytes, modulo 2^32 (R26). -/
def Advanced (s t : State) (len : Nat) : Prop := t.pc = s.pc + BitVec.ofNat 32 len

/-- Where the `n`-byte load at `a` meets a fault, the instruction stops with that fault (R43, R211). -/
def LoadStops (s : State) (a : Addr) (n : Nat) (i : Instr) : Prop := ∀ f, s.loadFault a n = some f → exec i s = .fault f

/-- Where the `n`-byte store at `a` meets a fault, the instruction stops with that fault (R44, R211). -/
def StoreStops (s : State) (a : Addr) (n : Nat) (i : Instr) : Prop :=
  ∀ f, s.storeFault a n = some f → exec i s = .fault f

/-- Register `rd` holds `r`, Z says whether `r` is zero, V is `v`, `pc` moved on by `len`, and nothing else changed: what
R101 says an ALU form leaves. -/
def AluDone (s t : State) (rd : RegNum) (r : Half) (v : Bool) (len : Nat) : Prop :=
  t.reg rd = r ∧ t.z = decide (r = 0) ∧ t.v = v ∧ Advanced s t len ∧ RegsSameExcept s t [rd] ∧ MemSame s t ∧
  ControlSame s t

/-- The three forms of one ALU operation: their encodings (R65, R68), their result and flags with the operand of R100,
and, in memory mode, the fault of the operand's load. `res` gives the result and `ovf` V, of the draw's number, the old
value of `rd` and the operand. -/
def AluFormsGive (op : Byte) (imm : RegNum → Half → Instr) (reg : RegNum → RegNum → Instr)
    (mem : RegNum → Addr → Instr) (res : Half → Half → Half) (ovf : Nat → Half → Half → Bool) : Prop :=
  (∀ rd i, encode (imm rd i) = [0x00, op, regByte rd, hiByte i, loByte i]) ∧
  (∀ rd rn, encode (reg rd rn) = [0x01, op, regByte rd, regByte rn]) ∧
  (∀ rd a, encode (mem rd a) = [0x02, op, regByte rd] ++ wordBytes a) ∧
  (∀ rd i s, ∃ t, exec (imm rd i) s = .next t ∧ AluDone s t rd (res (s.reg rd) i) (ovf s.draws (s.reg rd) i) 5) ∧
  (∀ rd rn s, ∃ t, exec (reg rd rn) s = .next t ∧
    AluDone s t rd (res (s.reg rd) (s.reg rn)) (ovf s.draws (s.reg rd) (s.reg rn)) 4) ∧
  (∀ rd a s, s.Readable a 2 → ∃ t, exec (mem rd a) s = .next t ∧
    AluDone s t rd (res (s.reg rd) (s.byteAt a ++ s.byteAt (a + 1)))
      (ovf s.draws (s.reg rd) (s.byteAt a ++ s.byteAt (a + 1))) 7) ∧
  (∀ rd a s, LoadStops s a 2 (mem rd a))

/-- Only the registers listed and `pc`, moved on by `len`, may differ: what a MOV load, immediate or register form
leaves (R140). -/
def MovLoaded (s t : State) (rs : List RegNum) (len : Nat) : Prop :=
  RegsSameExcept s t rs ∧ FlagsSame s t ∧ MemSame s t ∧ Advanced s t len ∧ ControlSame s t

/-- The bytes at `a` and after are `bs`, and nothing else changed but `pc`, moved on by `len`: what a MOV store leaves
(R140). -/
def MovStored (s t : State) (a : Addr) (bs : List Byte) (len : Nat) : Prop :=
  (∀ k (h : k < bs.length), t.byteAt (a + BitVec.ofNat 32 k) = bs[k]) ∧
  MemSameOutside s t a bs.length ∧ RegsSameExcept s t [] ∧ FlagsSame s t ∧ Advanced s t len ∧ ControlSame s t

/-- A register pair holds `x` and `y`; one register named twice holds one of the two (R10, D12). -/
def PairHolds (t : State) (d e : RegNum) (x y : Half) : Prop :=
  if d = e then t.reg d = x ∨ t.reg d = y else t.reg d = x ∧ t.reg e = y

/-- The halves of `p` are in `hi` and `lo`, Z says whether the whole of `p` is zero, V is `v`, `pc` moved on by 5, and
nothing else changed: what R180 says a long multiply leaves. -/
def MulDone (s t : State) (hi lo : RegNum) (p : Word) (v : Bool) : Prop :=
  PairHolds t hi lo (p.extractLsb' 16 16) (p.extractLsb' 0 16) ∧ t.z = decide (p = 0) ∧ t.v = v ∧ Advanced s t 5 ∧
  RegsSameExcept s t [hi, lo] ∧ MemSame s t ∧ ControlSame s t

/-- Only `pc` may differ: what a branch leaves (R170). -/
def OnlyPc (s t : State) : Prop :=
  RegsSameExcept s t [] ∧ FlagsSame s t ∧ MemSame s t ∧ ControlSame s t

/-! Two outcomes that agree but for one thing. -/

/-- The two outcomes stop for the same reason, or both go on, to states that `same` relates. -/
def OutcomesAgree (same : State → State → Prop) (o p : Host.Outcome State Fault Refusal) : Prop :=
  match o, p with
  | .next s, .next t => same s t
  | .fault f, .fault g => f = g
  | .refused f, .refused g => f = g
  | _, _ => False

/-- The states agree but for Z. -/
def SameButZ (s t : State) : Prop := t = { s with z := t.z }

/-- The states agree but for V. -/
def SameButV (s t : State) : Prop := t = { s with v := t.v }

/-- The states agree but for `pc`. -/
def SameButPc (s t : State) : Prop := t = { s with pc := t.pc }

end Sys2Proof.Machine
end

