-- ==== Sys2Proof/Certificates/Slice0/Obligations.lean ====
section
/-! DEFINITION. The statements for the provers, one `def Obligations.<Name> : Prop` each; OBLIGATIONS.json lists them. -/

open Sys2Proof Sys2Proof.Machine

/-! Encoding. -/

/-- Words written out from the spec's encodings (95_test_vectors.md S1, S2, S3, S5, S9, S30, S36, S38 and section 2.8)
decode to the instructions they stand for, and an undefined pair (section 2.9) does not decode. -/
def Obligations.SpecWordsDecode : Prop :=
  decode Params.default [0x00, 0x01, 0x05, 0x12, 0x34] = .ok (.addImm 5 0x1234, []) ∧
  decode Params.default [0x01, 0x01, 0x01, 0x02] = .ok (.addReg 1 2, []) ∧
  decode Params.default [0x02, 0x01, 0x03, 0x12, 0x34, 0x56, 0x78] = .ok (.addMem 3 0x12345678, []) ∧
  decode Params.default [0x01, 0x09, 0x01, 0x02, 0xDE, 0xAD, 0xBE, 0xEF] = .ok (.movImmPair 1 2 0xDEADBEEF, []) ∧
  decode Params.default [0x00, 0x0C, 0x01, 0x02, 0xDE, 0xAD, 0xBE, 0xEF] = .ok (.bne 1 2 0xDEADBEEF, []) ∧
  decode Params.default [0x12, 0x09, 0x01, 0x02, 0x03, 0x00, 0x00, 0x00, 0x60] = .ok (.movStPairOff 1 2 3 0x60, []) ∧
  decode Params.default [0x00, 0x10, 0x02, 0x03, 0x01] = .ok (.umull 2 3 1, []) ∧
  decode Params.default [0x00, 0x13, 0x01] = .ok (.psh 1, []) ∧
  decode Params.default [0x00, 0x12] = .ok (.hlt, []) ∧
  decode Params.default [0x03, 0x01, 0x00] = .error (.undefined 0x03 0x01)

/-- Decode and encode agree: the bytes of a well-formed instruction decode to that instruction, with every operand at
every value, under all parameters, and leave the bytes behind it (R65, R66, R72). -/
def Obligations.DecodeOfEncode : Prop :=
  ∀ (p : Params) (i : Instr) (rest : List Byte), i.wellFormed p = true →
    decode p (encode i ++ rest) = .ok (i, rest)

/-- Under `REG_HI_NIBBLE = fault` an instruction has one encoding: whatever decodes is the encoder's bytes of a
well-formed instruction (R73: exactly what an assembler produces, plus nothing). -/
def Obligations.DecodedBytesAreTheEncoding : Prop :=
  ∀ (p : Params) (bs rest : List Byte) (i : Instr), p.regHiNibble = .fault → decode p bs = .ok (i, rest) →
    i.wellFormed p = true ∧ bs = encode i ++ rest

/-- `REG_HI_NIBBLE` changes which bytes are admitted, never the meaning of admitted ones (R73): what decodes under `fault`
decodes to the same under `ignore`, and what decodes under `ignore` has the length and operands of the instruction the
bytes encode once bits 7:4 of its register bytes are cleared. -/
def Obligations.NibbleChoiceKeepsMeaning : Prop :=
  (∀ (p : Params) (bs : List Byte) (x : Instr × List Byte),
    decode { p with regHiNibble := .fault } bs = .ok x → decode { p with regHiNibble := .ignore } bs = .ok x) ∧
  (∀ (p : Params) (b0 b1 : Byte) (form : Form) (ops : List Byte), p.regHiNibble = .ignore →
    opcodeForm b1.toNat b0.toNat = some form → layoutKnown p form = true → form.length ≤ ops.length + 2 →
    ∃ i, decode p (b0 :: b1 :: ops) = .ok (i, ops.drop (form.length - 2)) ∧
      encode i = b0 :: b1 :: ((ops.take form.regBytes).map fun b => b &&& 0x0F) ++
        (ops.drop form.regBytes).take (form.length - 2 - form.regBytes))

/-- The 60 defined pairs of opcode and specifier are those R68 lists, and no others. -/
def Obligations.DefinedPairs : Prop :=
  ∀ (b0 b1 : Byte), (opcodeForm b1.toNat b0.toNat).isSome = true ↔
    (b0.toNat = 0 ∧ b1.toNat = 0) ∨ (b0.toNat ≤ 2 ∧ 1 ≤ b1.toNat ∧ b1.toNat ≤ 8) ∨
    (b0.toNat ≤ 0x12 ∧ b1.toNat = 9) ∨ (b0.toNat = 0 ∧ 0x0A ≤ b1.toNat ∧ b1.toNat ≤ 0x19)

/-- A decoded instruction takes exactly its length, 2 to 9 bytes, and its length is fixed by its first two bytes
(R64). -/
def Obligations.LengthFromFirstTwoBytes : Prop :=
  ∀ (p : Params) (b0 b1 : Byte) (ops rest : List Byte) (i : Instr), decode p (b0 :: b1 :: ops) = .ok (i, rest) →
    (∃ form, opcodeForm b1.toNat b0.toNat = some form ∧ i.length = form.length) ∧
    ops.length + 2 = i.length + rest.length ∧ 2 ≤ i.length ∧ i.length ≤ 9

/-! One step. -/

/-- A step runs the decoded instruction: where the machine is not halted and the bytes at `pc` decode to an instruction
all of whose bytes are mapped, a step is that instruction's meaning, with nothing added (R11, R56, R72). -/
def Obligations.StepRunsTheDecodedInstruction : Prop :=
  ∀ (s : State) (i : Instr) (rest : List Byte), s.halted = false →
    decode s.params ((accessAddrs s.pc 9).map s.byteAt) = .ok (i, rest) →
    (∀ k, k < i.length → s.isMapped (s.pc + BitVec.ofNat 32 k) = true) →
    step s = exec i s

/-- Executing an undefined pair of opcode and specifier is the fault that names `pc` and the two bytes (R69). -/
def Obligations.UndefinedEncodingFaults : Prop :=
  ∀ s : State, s.halted = false → s.isMapped s.pc = true → s.isMapped (s.pc + 1) = true →
    0x1A ≤ (s.byteAt (s.pc + 1)).toNat ∨
      (1 ≤ (s.byteAt (s.pc + 1)).toNat ∧ (s.byteAt (s.pc + 1)).toNat ≤ 8 ∧ 3 ≤ (s.byteAt s.pc).toNat) ∨
      ((s.byteAt (s.pc + 1)).toNat = 9 ∧ 0x13 ≤ (s.byteAt s.pc).toNat) ∨
      (((s.byteAt (s.pc + 1)).toNat = 0 ∨ 0x0A ≤ (s.byteAt (s.pc + 1)).toNat) ∧ (s.byteAt s.pc).toNat ≠ 0) →
    step s = .fault (.undefinedInstruction s.pc (s.byteAt s.pc) (s.byteAt (s.pc + 1)))

/-- With `REG_HI_NIBBLE = fault`, a register byte with non-zero bits 7:4 is the same fault, once every byte of the
instruction is fetched (R61, R72, R213). -/
def Obligations.RegisterNibbleFaults : Prop :=
  ∀ (s : State) (form : Form) (k : Nat), s.halted = false → s.params.regHiNibble = .fault →
    opcodeForm (s.byteAt (s.pc + 1)).toNat (s.byteAt s.pc).toNat = some form → layoutKnown s.params form = true →
    (∀ j, j < form.length → s.isMapped (s.pc + BitVec.ofNat 32 j) = true) →
    k < form.regBytes → 16 ≤ (s.byteAt (s.pc + BitVec.ofNat 32 (2 + k))).toNat →
    step s = .fault (.undefinedInstruction s.pc (s.byteAt s.pc) (s.byteAt (s.pc + 1)))

/-- A fetch touches exactly the instruction's bytes (R56, R213; D21). Byte 0 unmapped, or else byte 1, is an access fault
before the pair is looked at; the lowest unmapped one of the others is one after it. Where all of the instruction's bytes
are mapped, no byte behind them matters: the step is the meaning of the instruction they decode to, or, where they do not
decode, the fault of an undefined encoding. -/
def Obligations.FetchFaultsAtFirstUnmapped : Prop :=
  (∀ (s : State) (k : Nat), s.halted = false → k < 2 →
    (∀ j, j < k → s.isMapped (s.pc + BitVec.ofNat 32 j) = true) → s.isMapped (s.pc + BitVec.ofNat 32 k) = false →
    step s = .fault (.accessFault (s.pc + BitVec.ofNat 32 k))) ∧
  (∀ (s : State) (form : Form) (k : Nat), s.halted = false →
    opcodeForm (s.byteAt (s.pc + 1)).toNat (s.byteAt s.pc).toNat = some form → layoutKnown s.params form = true →
    s.isMapped s.pc = true → s.isMapped (s.pc + 1) = true → 2 ≤ k → k < form.length →
    s.isMapped (s.pc + BitVec.ofNat 32 k) = false →
    (∀ j, 2 ≤ j → j < form.length → s.isMapped (s.pc + BitVec.ofNat 32 j) = false →
      (s.pc + BitVec.ofNat 32 k).toNat ≤ (s.pc + BitVec.ofNat 32 j).toNat) →
    step s = .fault (.accessFault (s.pc + BitVec.ofNat 32 k))) ∧
  (∀ (s : State) (form : Form), s.halted = false →
    opcodeForm (s.byteAt (s.pc + 1)).toNat (s.byteAt s.pc).toNat = some form → layoutKnown s.params form = true →
    (∀ j, j < form.length → s.isMapped (s.pc + BitVec.ofNat 32 j) = true) →
    step s = match decode s.params ((accessAddrs s.pc form.length).map s.byteAt) with
      | .ok (i, _) => exec i s
      | .error _ => .fault (.undefinedInstruction s.pc (s.byteAt s.pc) (s.byteAt (s.pc + 1))))

/-- A halted machine is stuck: it has no successor, for any contents of memory and registers (R31, R222). That the model
says so with a fault named `halted` is its own choice (log 10). -/
def Obligations.HaltedHasNoSuccessor : Prop :=
  ∀ s : State, s.halted = true → step s = .fault .halted

/-- With `MULL_LEN = 4`, UMULL and SMULL are refused (R183). -/
def Obligations.LongMultiplyNeedsItsLayout : Prop :=
  ∀ s : State, s.halted = false → s.params.mullLen = .four → s.isMapped s.pc = true → s.isMapped (s.pc + 1) = true →
    s.byteAt s.pc = 0x00 → s.byteAt (s.pc + 1) = 0x10 ∨ s.byteAt (s.pc + 1) = 0x11 →
    step s = .refused .longMultiplyLayout

/-! What every step keeps. -/

/-- Every step keeps the invariant: memory stays in its canonical form and lists only mapped addresses (R42, R44). -/
def Obligations.StepKeepsInv : Prop :=
  ∀ s t : State, s.Inv → step s = .next t → t.Inv

/-- The invariant holds after reset, whatever the platform's map, entry point, registers and flags, as long as nothing is
loaded; so it holds of `State.reset`. -/
def Obligations.ResetMeetsInv : Prop :=
  (∀ p a rs z v, (State.boot p a rs z v []).Inv) ∧ State.reset.Inv

/-- No step changes a byte of the program text or an unmapped byte (R42, R44, R55), nor a parameter. That the parameters,
each an argument of the model in R7, are part of the state, so that there is something to keep, is the model's choice
(log 26). -/
def Obligations.StepKeepsTextAndMap : Prop :=
  ∀ s t : State, step s = .next t →
    (∀ a, s.inText a = true → t.byteAt a = s.byteAt a) ∧ (∀ a, s.isMapped a = false → t.byteAt a = s.byteAt a) ∧
    t.params = s.params

/-- HLT halts and leaves registers, flags and memory as they are, and nothing runs after it; nothing is said of `pc`
(R196). No instruction clears the halted bit (R31), and none but HLT sets it, which the spec leaves to be inferred: it
names no other. -/
def Obligations.HltAloneHalts : Prop :=
  encode .hlt = [0x00, 0x12] ∧ (∀ s t : State, s.halted = true → step s ≠ .next t) ∧
  (∀ s : State, ∃ t, exec .hlt s = .next t ∧ t.halted = true ∧ RegsSameExcept s t [] ∧ FlagsSame s t ∧ MemSame s t ∧
    t.params = s.params) ∧
  (∀ (i : Instr) (s t : State), i ≠ .hlt → exec i s = .next t → t.halted = s.halted)

/-- Only the instructions R27 lists write Z and V. -/
def Obligations.FlagsWrittenByListedOnly : Prop :=
  ∀ (i : Instr) (s t : State), i.writesFlags = false → exec i s = .next t → t.z = s.z ∧ t.v = s.v

/-- Z is read by no instruction: from two states that differ only in Z, a step goes the same way and leads to states that
differ at most in Z (R27). -/
def Obligations.ZeroFlagIsNeverRead : Prop :=
  ∀ (s : State) (b : Bool), OutcomesAgree SameButZ (step s) (step { s with z := b })

/-- V is read by BRO only: from two states that differ only in V, any other instruction goes the same way and leads to
states that differ at most in V (R27). -/
def Obligations.OverflowFlagReadByBroOnly : Prop :=
  ∀ (i : Instr) (s : State) (b : Bool), (∀ target, i ≠ .bro target) →
    OutcomesAgree SameButV (exec i s) (exec i { s with v := b })

/-- Only JSR observes `pc`: any other instruction, run from two states that differ only in `pc`, goes the same way and
leads to states that differ at most in `pc` (R25). -/
def Obligations.OnlyJsrSeesPc : Prop :=
  ∀ (i : Instr) (s : State) (a : Addr), (∀ target, i ≠ .jsr target) →
    OutcomesAgree SameButPc (exec i s) (exec i { s with pc := a })

/-- An instruction that does not transfer control moves `pc` on by its length modulo 2^32 (R26); HLT is left out, for
the spec states no `pc` after it (R196). -/
def Obligations.SequentialAdvance : Prop :=
  ∀ (i : Instr) (s t : State), i.transfersControl = false → i ≠ .hlt → exec i s = .next t →
    t.pc = s.pc + BitVec.ofNat 32 (encode i).length

/-- An instruction writes no register but its destinations, and R14 where it moves the stack. -/
def Obligations.RegistersWrittenAreNamed : Prop :=
  ∀ (i : Instr) (s t : State), exec i s = .next t → RegsSameExcept s t (i.regsWritten s.params.mullRoles)

/-- An instruction changes no byte of memory but the bytes at its store's address, for its store's width; one that stores
nothing changes none (R46). -/
def Obligations.MemoryWrittenAtTargetOnly : Prop :=
  (∀ (i : Instr) (s t : State), exec i s = .next t → i.storeTarget s = none → MemSame s t) ∧
  (∀ (i : Instr) (s t : State) (a : Addr) (n : Nat), exec i s = .next t → i.storeTarget s = some (a, n) →
    MemSameOutside s t a n)

/-! Memory accesses. -/

/-- `MemRead` is big-endian modulo 2^32; where it meets a fault it gives nothing, and the fault of an unmapped byte names
the lowest unmapped byte of the access (R43). -/
def Obligations.LoadsAreBigEndian : Prop :=
  (∀ (s : State) (a : Addr), s.Readable a 1 → s.loadByte a = .next (s.byteAt a)) ∧
  (∀ (s : State) (a : Addr), s.Readable a 2 → ∃ h, s.loadHalf a = .next h ∧
    h.toNat = (s.byteAt a).toNat * 2 ^ 8 + (s.byteAt (a + 1)).toNat) ∧
  (∀ (s : State) (a : Addr), s.Readable a 4 → ∃ w, s.loadWord a = .next w ∧
    w.toNat = (s.byteAt a).toNat * 2 ^ 24 + (s.byteAt (a + 1)).toNat * 2 ^ 16 + (s.byteAt (a + 2)).toNat * 2 ^ 8 +
      (s.byteAt (a + 3)).toNat) ∧
  (∀ (s : State) (a : Addr) (f : Fault), (s.loadFault a 1 = some f → s.loadByte a = .fault f) ∧
    (s.loadFault a 2 = some f → s.loadHalf a = .fault f) ∧ (s.loadFault a 4 = some f → s.loadWord a = .fault f)) ∧
  (∀ (s : State) (a : Addr) (n k : Nat), s.params.dataAlignFault = false → k < n →
    s.isMapped (a + BitVec.ofNat 32 k) = false →
    ∃ j, j < n ∧ s.isMapped (a + BitVec.ofNat 32 j) = false ∧
      s.loadFault a n = some (.accessFault (a + BitVec.ofNat 32 j)) ∧
      (a + BitVec.ofNat 32 j).toNat ≤ (a + BitVec.ofNat 32 k).toNat)

/-- `MemWrite` is big-endian modulo 2^32, changes no other byte, and writes nothing where a byte is unmapped or in the
program text (R44). -/
def Obligations.StoresAreBigEndian : Prop :=
  (∀ (s : State) (a : Addr) (v : Byte), s.Writable a 1 → ∃ t, s.storeByte a v = .next t ∧
    t.byteAt a = v ∧ MemSameOutside s t a 1) ∧
  (∀ (s : State) (a : Addr) (v : Half), s.Writable a 2 → ∃ t, s.storeHalf a v = .next t ∧
    t.byteAt a = v.extractLsb' 8 8 ∧ t.byteAt (a + 1) = v.extractLsb' 0 8 ∧ MemSameOutside s t a 2) ∧
  (∀ (s : State) (a : Addr) (v : Word), s.Writable a 4 → ∃ t, s.storeWord a v = .next t ∧
    t.byteAt a = v.extractLsb' 24 8 ∧ t.byteAt (a + 1) = v.extractLsb' 16 8 ∧
    t.byteAt (a + 2) = v.extractLsb' 8 8 ∧ t.byteAt (a + 3) = v.extractLsb' 0 8 ∧ MemSameOutside s t a 4) ∧
  (∀ (s : State) (a : Addr) (bs : List Byte) (k : Nat), k < bs.length →
    s.isMapped (a + BitVec.ofNat 32 k) = false ∨ s.inText (a + BitVec.ofNat 32 k) = true →
    ∃ f, s.storeBytes a bs = .fault f)

/-- The fault a data access reports (R213 (6)): misalignment, only under `DATA_ALIGN_FAULT`; else the lowest unmapped byte
(R43); else, for a store, the lowest byte in the program text. That every byte of the access is looked at for mapping
before any is looked at for the text is the model's reading of R213 (log 19, DEDUCED). -/
def Obligations.DataFaultOrder : Prop :=
  (∀ (s : State) (a : Addr) (n : Nat), s.params.dataAlignFault = true → a.toNat % n ≠ 0 →
    s.loadFault a n = some (.misalignedAccess a) ∧ s.storeFault a n = some (.misalignedAccess a)) ∧
  (∀ (s : State) (a : Addr) (n k : Nat), (s.params.dataAlignFault = true → a.toNat % n = 0) → k < n →
    s.isMapped (a + BitVec.ofNat 32 k) = false →
    (∀ j, j < n → s.isMapped (a + BitVec.ofNat 32 j) = false →
      (a + BitVec.ofNat 32 k).toNat ≤ (a + BitVec.ofNat 32 j).toNat) →
    s.loadFault a n = some (.accessFault (a + BitVec.ofNat 32 k)) ∧
    s.storeFault a n = some (.accessFault (a + BitVec.ofNat 32 k))) ∧
  (∀ (s : State) (a : Addr) (n k : Nat), (s.params.dataAlignFault = true → a.toNat % n = 0) → k < n →
    (∀ j, j < n → s.isMapped (a + BitVec.ofNat 32 j) = true) → s.inText (a + BitVec.ofNat 32 k) = true →
    (∀ j, j < n → s.inText (a + BitVec.ofNat 32 j) = true →
      (a + BitVec.ofNat 32 k).toNat ≤ (a + BitVec.ofNat 32 j).toNat) →
    s.loadFault a n = none ∧ s.storeFault a n = some (.codeWrite (a + BitVec.ofNat 32 k))) ∧
  (∀ (s : State) (a : Addr) (n : Nat), s.Writable a n → s.loadFault a n = none ∧ s.storeFault a n = none)

/-- A load that faults stops its instruction, and so does one that is refused: no register changes, for there is no next
state (R160 (c), R211). The refusal is R41's option for loads of the program's bytes under `UNIFIED_MEMORY = false`; that
it is taken there, and that a fault comes before it, is the model's choice (log 16). RTS is left out under `word32`, where
it is refused first. -/
def Obligations.FaultingLoadStops : Prop :=
  ∀ (i : Instr) (s : State) (a : Addr) (n : Nat), i.loadTarget s = some (a, n) →
    (i = .rts → s.params.retaddrMode = .half16) →
    (∀ f, s.loadFault a n = some f → exec i s = .fault f) ∧
    (∀ r, s.loadFault a n = none → s.loadRefusal a n = some r → exec i s = .refused r)

/-- A store that faults stops its instruction: no byte of memory changes, for there is no next state (R44, R211). For JSR
the return address must fit, else it stops before the store. -/
def Obligations.FaultingStoreStops : Prop :=
  ∀ (i : Instr) (s : State) (a : Addr) (n : Nat) (f : Fault), i.storeTarget s = some (a, n) →
    (∀ target, i = .jsr target → s.params.retaddrMode = .half16 ∧ (s.pc + 6).toNat < 65536) →
    s.storeFault a n = some f → exec i s = .fault f

/-! Arithmetic and logic (R100 to R127). -/

/-- ADD in its three forms: the sum modulo 2^16; V says whether the exact sum exceeds 0xFFFF (R102 to R104). -/
def Obligations.AddForms : Prop :=
  AluFormsGive 0x01 .addImm .addReg .addMem (fun a b => BitVec.ofNat 16 (a.toNat + b.toNat))
    (fun _ a b => decide (65535 < a.toNat + b.toNat))

/-- SUB in its three forms: the difference, clamped at 0 (R105 to R107). V is open there; that it is a free value of the
draw's number and the old operands is the model's choice of form (log 6), and the statement holds of every such value. -/
def Obligations.SubForms : Prop :=
  AluFormsGive 0x02 .subImm .subReg .subMem (fun a b => BitVec.ofNat 16 (a.toNat - b.toNat))
    (fun k a b => Config.flagVSub k a b)

/-- MUL in its three forms: the low 16 bits of the unsigned product; V says whether the product exceeds 0xFFFF (R108 to
R110). -/
def Obligations.MulForms : Prop :=
  AluFormsGive 0x03 .mulImm .mulReg .mulMem (fun a b => BitVec.ofNat 16 (a.toNat * b.toNat))
    (fun _ a b => decide (65535 < a.toNat * b.toNat))

/-- AND in its three forms, bit by bit; V is cleared (R111 to R113). -/
def Obligations.AndForms : Prop :=
  AluFormsGive 0x04 .andImm .andReg .andMem (fun a b => BitVec.ofNat 16 (a.toNat &&& b.toNat)) (fun _ _ _ => false)

/-- OR in its three forms, bit by bit; V is cleared (R114 to R116). -/
def Obligations.OrForms : Prop :=
  AluFormsGive 0x05 .orImm .orReg .orMem (fun a b => BitVec.ofNat 16 (a.toNat ||| b.toNat)) (fun _ _ _ => false)

/-- XOR in its three forms, bit by bit; V is cleared (R117 to R119). -/
def Obligations.XorForms : Prop :=
  AluFormsGive 0x06 .xorImm .xorReg .xorMem (fun a b => BitVec.ofNat 16 (a.toNat ^^^ b.toNat)) (fun _ _ _ => false)

/-- LSH in its three forms: times 2 to the low five bits of the operand, modulo 2^16 (R120 to R122). V is open
there; that it is a free value of the draw's number, the old `rd` and the five bits is the model's choice of form (log 6),
and the statement holds of every such value. -/
def Obligations.LshForms : Prop :=
  AluFormsGive 0x07 .lshImm .lshReg .lshMem (fun a b => BitVec.ofNat 16 (a.toNat * 2 ^ (b.toNat % 32)))
    (fun k a b => Config.flagVLsh k a (b.extractLsb' 0 5))

/-- RSH in its three forms: divided by 2 to the low five bits of the operand, rounded down (R123 to R125). V is
open there; that it is a free value of the draw's number, the old `rd` and the five bits is the model's choice of form
(log 6), and the statement holds of every such value. -/
def Obligations.RshForms : Prop :=
  AluFormsGive 0x08 .rshImm .rshReg .rshMem (fun a b => BitVec.ofNat 16 (a.toNat / 2 ^ (b.toNat % 32)))
    (fun k a b => Config.flagVRsh k a (b.extractLsb' 0 5))

/-! Data movement (R140 to R160). -/

/-- MOV immediate to register and register to register (R141, R143). -/
def Obligations.MovImmediateAndRegister : Prop :=
  (∀ rd imm, encode (.movImm rd imm) = [0x00, 0x09, regByte rd, hiByte imm, loByte imm]) ∧
  (∀ rd rn, encode (.movReg rd rn) = [0x02, 0x09, regByte rd, regByte rn]) ∧
  (∀ rd imm s, ∃ t, exec (.movImm rd imm) s = .next t ∧ t.reg rd = imm ∧ MovLoaded s t [rd] 5) ∧
  (∀ rd rn s, ∃ t, exec (.movReg rd rn) s = .next t ∧ t.reg rd = s.reg rn ∧ MovLoaded s t [rd] 4)

/-- MOV 32-bit immediate to a register pair, high half to the first register; one register named twice holds one of the
two halves (R142). -/
def Obligations.MovImmediateToPair : Prop :=
  (∀ rd rn imm, encode (.movImmPair rd rn imm) = [0x01, 0x09, regByte rd, regByte rn] ++ wordBytes imm) ∧
  (∀ rd rn imm s, ∃ t, exec (.movImmPair rd rn imm) s = .next t ∧
    PairHolds t rd rn (imm.extractLsb' 16 16) (imm.extractLsb' 0 16) ∧ MovLoaded s t [rd, rn] 8)

/-- The four byte loads write one lane of the register and keep the other (R144, R145, R152, R153): encodings, results
and faults. -/
def Obligations.MovByteLoads : Prop :=
  (∀ rd a, encode (.movLdLow rd a) = [0x03, 0x09, regByte rd] ++ wordBytes a) ∧
  (∀ rd a, encode (.movLdHigh rd a) = [0x04, 0x09, regByte rd] ++ wordBytes a) ∧
  (∀ rd rn off, encode (.movLdLowOff rd rn off) = [0x0B, 0x09, regByte rd, regByte rn] ++ wordBytes off) ∧
  (∀ rd rn off, encode (.movLdHighOff rd rn off) = [0x0C, 0x09, regByte rd, regByte rn] ++ wordBytes off) ∧
  (∀ rd a s, LoadStops s a 1 (.movLdLow rd a) ∧ (s.Readable a 1 → ∃ t, exec (.movLdLow rd a) s = .next t ∧
    t.reg rd = (s.reg rd).extractLsb' 8 8 ++ s.byteAt a ∧ MovLoaded s t [rd] 7)) ∧
  (∀ rd a s, LoadStops s a 1 (.movLdHigh rd a) ∧ (s.Readable a 1 → ∃ t, exec (.movLdHigh rd a) s = .next t ∧
    t.reg rd = s.byteAt a ++ (s.reg rd).extractLsb' 0 8 ∧ MovLoaded s t [rd] 7)) ∧
  (∀ rd rn off s, LoadStops s (s.effAddr rn off) 1 (.movLdLowOff rd rn off) ∧
    (s.Readable (s.effAddr rn off) 1 → ∃ t, exec (.movLdLowOff rd rn off) s = .next t ∧
      t.reg rd = (s.reg rd).extractLsb' 8 8 ++ s.byteAt (s.effAddr rn off) ∧ MovLoaded s t [rd] 8)) ∧
  (∀ rd rn off s, LoadStops s (s.effAddr rn off) 1 (.movLdHighOff rd rn off) ∧
    (s.Readable (s.effAddr rn off) 1 → ∃ t, exec (.movLdHighOff rd rn off) s = .next t ∧
      t.reg rd = s.byteAt (s.effAddr rn off) ++ (s.reg rd).extractLsb' 0 8 ∧ MovLoaded s t [rd] 8))

/-- The two halfword loads, most significant byte first; the base is read before the destination is written (R146,
R154): encodings, results and faults. -/
def Obligations.MovHalfwordLoads : Prop :=
  (∀ rd a, encode (.movLdHalf rd a) = [0x05, 0x09, regByte rd] ++ wordBytes a) ∧
  (∀ rd rn off, encode (.movLdHalfOff rd rn off) = [0x0D, 0x09, regByte rd, regByte rn] ++ wordBytes off) ∧
  (∀ rd a s, LoadStops s a 2 (.movLdHalf rd a) ∧ (s.Readable a 2 → ∃ t, exec (.movLdHalf rd a) s = .next t ∧
    t.reg rd = s.byteAt a ++ s.byteAt (a + 1) ∧ MovLoaded s t [rd] 7)) ∧
  (∀ rd rn off s, LoadStops s (s.effAddr rn off) 2 (.movLdHalfOff rd rn off) ∧
    (s.Readable (s.effAddr rn off) 2 → ∃ t, exec (.movLdHalfOff rd rn off) s = .next t ∧
      t.reg rd = s.byteAt (s.effAddr rn off) ++ s.byteAt (s.effAddr rn off + 1) ∧ MovLoaded s t [rd] 8))

/-- The two word loads to a register pair, high half to the first register; one register named twice holds one of the two
halves (R147, R155): encodings, results and faults. -/
def Obligations.MovPairLoads : Prop :=
  (∀ rd rn1 a, encode (.movLdPair rd rn1 a) = [0x06, 0x09, regByte rd, regByte rn1] ++ wordBytes a) ∧
  (∀ rd rd1 rn off, encode (.movLdPairOff rd rd1 rn off) =
    [0x0E, 0x09, regByte rd, regByte rd1, regByte rn] ++ wordBytes off) ∧
  (∀ rd rn1 a s, LoadStops s a 4 (.movLdPair rd rn1 a) ∧
    (s.Readable a 4 → ∃ t, exec (.movLdPair rd rn1 a) s = .next t ∧
      PairHolds t rd rn1 (s.byteAt a ++ s.byteAt (a + 1)) (s.byteAt (a + 2) ++ s.byteAt (a + 3)) ∧
      MovLoaded s t [rd, rn1] 8)) ∧
  (∀ rd rd1 rn off s, LoadStops s (s.effAddr rn off) 4 (.movLdPairOff rd rd1 rn off) ∧
    (s.Readable (s.effAddr rn off) 4 → ∃ t, exec (.movLdPairOff rd rd1 rn off) s = .next t ∧
      PairHolds t rd rd1 (s.byteAt (s.effAddr rn off) ++ s.byteAt (s.effAddr rn off + 1))
        (s.byteAt (s.effAddr rn off + 2) ++ s.byteAt (s.effAddr rn off + 3)) ∧
      MovLoaded s t [rd, rd1] 9))

/-- The four byte stores write one byte, a lane of the register (R148, R149, R156, R157): encodings, results and
faults. -/
def Obligations.MovByteStores : Prop :=
  (∀ rd a, encode (.movStLow rd a) = [0x07, 0x09, regByte rd] ++ wordBytes a) ∧
  (∀ rd a, encode (.movStHigh rd a) = [0x08, 0x09, regByte rd] ++ wordBytes a) ∧
  (∀ rd rn off, encode (.movStLowOff rd rn off) = [0x0F, 0x09, regByte rd, regByte rn] ++ wordBytes off) ∧
  (∀ rd rn off, encode (.movStHighOff rd rn off) = [0x10, 0x09, regByte rd, regByte rn] ++ wordBytes off) ∧
  (∀ rd a s, StoreStops s a 1 (.movStLow rd a) ∧ (s.Writable a 1 → ∃ t, exec (.movStLow rd a) s = .next t ∧
    MovStored s t a [(s.reg rd).extractLsb' 0 8] 7)) ∧
  (∀ rd a s, StoreStops s a 1 (.movStHigh rd a) ∧ (s.Writable a 1 → ∃ t, exec (.movStHigh rd a) s = .next t ∧
    MovStored s t a [(s.reg rd).extractLsb' 8 8] 7)) ∧
  (∀ rd rn off s, StoreStops s (s.effAddr rn off) 1 (.movStLowOff rd rn off) ∧
    (s.Writable (s.effAddr rn off) 1 → ∃ t, exec (.movStLowOff rd rn off) s = .next t ∧
      MovStored s t (s.effAddr rn off) [(s.reg rd).extractLsb' 0 8] 8)) ∧
  (∀ rd rn off s, StoreStops s (s.effAddr rn off) 1 (.movStHighOff rd rn off) ∧
    (s.Writable (s.effAddr rn off) 1 → ∃ t, exec (.movStHighOff rd rn off) s = .next t ∧
      MovStored s t (s.effAddr rn off) [(s.reg rd).extractLsb' 8 8] 8))

/-- The two halfword stores, most significant byte first (R150, R158): encodings, results and faults. -/
def Obligations.MovHalfwordStores : Prop :=
  (∀ rd a, encode (.movStHalf rd a) = [0x09, 0x09, regByte rd] ++ wordBytes a) ∧
  (∀ rd rn off, encode (.movStHalfOff rd rn off) = [0x11, 0x09, regByte rd, regByte rn] ++ wordBytes off) ∧
  (∀ rd a s, StoreStops s a 2 (.movStHalf rd a) ∧ (s.Writable a 2 → ∃ t, exec (.movStHalf rd a) s = .next t ∧
    MovStored s t a [(s.reg rd).extractLsb' 8 8, (s.reg rd).extractLsb' 0 8] 7)) ∧
  (∀ rd rn off s, StoreStops s (s.effAddr rn off) 2 (.movStHalfOff rd rn off) ∧
    (s.Writable (s.effAddr rn off) 2 → ∃ t, exec (.movStHalfOff rd rn off) s = .next t ∧
      MovStored s t (s.effAddr rn off) [(s.reg rd).extractLsb' 8 8, (s.reg rd).extractLsb' 0 8] 8))

/-- The two word stores of a register pair, the first register at the lower addresses (R151, R159): encodings, results and
faults. -/
def Obligations.MovPairStores : Prop :=
  (∀ rd rn1 a, encode (.movStPair rd rn1 a) = [0x0A, 0x09, regByte rd, regByte rn1] ++ wordBytes a) ∧
  (∀ rd rd1 rn off, encode (.movStPairOff rd rd1 rn off) =
    [0x12, 0x09, regByte rd, regByte rd1, regByte rn] ++ wordBytes off) ∧
  (∀ rd rn1 a s, StoreStops s a 4 (.movStPair rd rn1 a) ∧
    (s.Writable a 4 → ∃ t, exec (.movStPair rd rn1 a) s = .next t ∧
      MovStored s t a [(s.reg rd).extractLsb' 8 8, (s.reg rd).extractLsb' 0 8, (s.reg rn1).extractLsb' 8 8,
        (s.reg rn1).extractLsb' 0 8] 8)) ∧
  (∀ rd rd1 rn off s, StoreStops s (s.effAddr rn off) 4 (.movStPairOff rd rd1 rn off) ∧
    (s.Writable (s.effAddr rn off) 4 → ∃ t, exec (.movStPairOff rd rd1 rn off) s = .next t ∧
      MovStored s t (s.effAddr rn off) [(s.reg rd).extractLsb' 8 8, (s.reg rd).extractLsb' 0 8,
        (s.reg rd1).extractLsb' 8 8, (s.reg rd1).extractLsb' 0 8] 9))

/-- The address of a base plus offset form is the sum of the two unsigned values modulo 2^32 (R50 (b)); the stack's
address is R14's unsigned value (R50 (c)). -/
def Obligations.EffectiveAddresses : Prop :=
  (∀ (s : State) (rn : RegNum) (off : Word), (s.effAddr rn off).toNat = ((s.reg rn).toNat + off.toNat) % 2 ^ 32) ∧
  (∀ sp : Half, (stackAddr sp).toNat = sp.toNat)

/-! Branches (R170 to R177). -/

/-- The four compare-branches compare two registers as unsigned numbers, go to the target or on by 8 bytes, and change
only `pc` (R172 to R175). -/
def Obligations.CompareBranches : Prop :=
  (∀ rd rn target, encode (.be rd rn target) = [0x00, 0x0B, regByte rd, regByte rn] ++ wordBytes target) ∧
  (∀ rd rn target, encode (.bne rd rn target) = [0x00, 0x0C, regByte rd, regByte rn] ++ wordBytes target) ∧
  (∀ rd rn target, encode (.blt rd rn target) = [0x00, 0x0D, regByte rd, regByte rn] ++ wordBytes target) ∧
  (∀ rd rn target, encode (.bgt rd rn target) = [0x00, 0x0E, regByte rd, regByte rn] ++ wordBytes target) ∧
  (∀ rd rn target s, ∃ t, exec (.be rd rn target) s = .next t ∧ OnlyPc s t ∧
    (s.reg rd = s.reg rn → t.pc = target) ∧ (s.reg rd ≠ s.reg rn → Advanced s t 8)) ∧
  (∀ rd rn target s, ∃ t, exec (.bne rd rn target) s = .next t ∧ OnlyPc s t ∧
    (s.reg rd ≠ s.reg rn → t.pc = target) ∧ (s.reg rd = s.reg rn → Advanced s t 8)) ∧
  (∀ rd rn target s, ∃ t, exec (.blt rd rn target) s = .next t ∧ OnlyPc s t ∧
    ((s.reg rd).toNat < (s.reg rn).toNat → t.pc = target) ∧
    ((s.reg rn).toNat ≤ (s.reg rd).toNat → Advanced s t 8)) ∧
  (∀ rd rn target s, ∃ t, exec (.bgt rd rn target) s = .next t ∧ OnlyPc s t ∧
    ((s.reg rn).toNat < (s.reg rd).toNat → t.pc = target) ∧
    ((s.reg rd).toNat ≤ (s.reg rn).toNat → Advanced s t 8))

/-- B goes to its target from everywhere (R171); BRO tests V, goes to the target or on by 6 bytes, and leaves V as it is
(R176). Both change only `pc`. -/
def Obligations.AlwaysAndOverflowBranches : Prop :=
  (∀ target, encode (.b target) = [0x00, 0x0A] ++ wordBytes target) ∧
  (∀ target, encode (.bro target) = [0x00, 0x0F] ++ wordBytes target) ∧
  (∀ target s, ∃ t, exec (.b target) s = .next t ∧ t.pc = target ∧ OnlyPc s t) ∧
  (∀ target s, ∃ t, exec (.bro target) s = .next t ∧ OnlyPc s t ∧
    (s.v = true → t.pc = target) ∧ (s.v = false → Advanced s t 6))

/-! Long multiplies (R180 to R183). -/

/-- UMULL: the exact unsigned product of its sources, halves to its two destinations, under each of the three readings of
the register bytes (R180, R181 for the first, R183 for the other two). V is open there; that it is a free value of the
draw's number and the sources is the model's choice of form (log 6), and the statement holds of every such value. -/
def Obligations.UmullResult : Prop :=
  ∀ b2 b3 b4, encode (.umull b2 b3 b4) = [0x00, 0x10, regByte b2, regByte b3, regByte b4] ∧
  ∀ s, ∃ t, exec (.umull b2 b3 b4) s = .next t ∧
    (s.params.mullRoles = .operationLine → MulDone s t b2 b4
      (BitVec.ofNat 32 ((s.reg b2).toNat * (s.reg b3).toNat)) (Config.flagVUmull s.draws (s.reg b2) (s.reg b3))) ∧
    (s.params.mullRoles = .exampleIdentity → MulDone s t b3 b2
      (BitVec.ofNat 32 ((s.reg b3).toNat * (s.reg b4).toNat)) (Config.flagVUmull s.draws (s.reg b3) (s.reg b4))) ∧
    (s.params.mullRoles = .exampleRdRn1 → MulDone s t b4 b2
      (BitVec.ofNat 32 ((s.reg b4).toNat * (s.reg b3).toNat)) (Config.flagVUmull s.draws (s.reg b4) (s.reg b3)))

/-- SMULL: the product of its sources' two's-complement values as a 32-bit pattern, halves to its two destinations, under
each of the three readings of the register bytes (R180, R182 for the first, R183 for the other two). V is open there; that
it is a free value of the draw's number and the sources is the model's choice of form (log 6), and the statement holds of
every such value. -/
def Obligations.SmullResult : Prop :=
  ∀ b2 b3 b4, encode (.smull b2 b3 b4) = [0x00, 0x11, regByte b2, regByte b3, regByte b4] ∧
  ∀ s, ∃ t, exec (.smull b2 b3 b4) s = .next t ∧
    (s.params.mullRoles = .operationLine → MulDone s t b2 b4
      (BitVec.ofInt 32 ((s.reg b2).toInt * (s.reg b3).toInt)) (Config.flagVSmull s.draws (s.reg b2) (s.reg b3))) ∧
    (s.params.mullRoles = .exampleIdentity → MulDone s t b3 b2
      (BitVec.ofInt 32 ((s.reg b3).toInt * (s.reg b4).toInt)) (Config.flagVSmull s.draws (s.reg b3) (s.reg b4))) ∧
    (s.params.mullRoles = .exampleRdRn1 → MulDone s t b4 b2
      (BitVec.ofInt 32 ((s.reg b4).toInt * (s.reg b3).toInt)) (Config.flagVSmull s.draws (s.reg b4) (s.reg b3)))

/-- The product of SMULL is never cut: read as two's complement, the 32 bits are the exact product, and its low half is
UMULL's (R182). -/
def Obligations.SmullProductIsExact : Prop :=
  ∀ a b : Half, (smullProduct a b).toInt = a.toInt * b.toInt ∧ (umullProduct a b).toNat = a.toNat * b.toNat ∧
    loHalf (smullProduct a b) = loHalf (umullProduct a b)

/-! Stack and subroutines (R186 to R192). -/

/-- PSH stores the register at R14, most significant byte first, and then takes 2 from R14 modulo 2^16 (R187). -/
def Obligations.PushResult : Prop :=
  (∀ rd, encode (.psh rd) = [0x00, 0x13, regByte rd]) ∧
  (∀ rd s, StoreStops s (stackAddr (s.reg 14)) 2 (.psh rd) ∧
    (s.Writable (stackAddr (s.reg 14)) 2 → ∃ t, exec (.psh rd) s = .next t ∧
      t.byteAt (stackAddr (s.reg 14)) = (s.reg rd).extractLsb' 8 8 ∧
      t.byteAt (stackAddr (s.reg 14) + 1) = (s.reg rd).extractLsb' 0 8 ∧
      MemSameOutside s t (stackAddr (s.reg 14)) 2 ∧ t.reg 14 = s.reg 14 - 2 ∧ RegsSameExcept s t [14] ∧
      FlagsSame s t ∧ Advanced s t 3 ∧ ControlSame s t))

/-- POP adds 2 to R14 modulo 2^16 and loads the register from there; `POP R14` leaves one of the two values in R14
(R188). -/
def Obligations.PopResult : Prop :=
  (∀ rd, encode (.pop rd) = [0x00, 0x14, regByte rd]) ∧
  (∀ rd s, LoadStops s (stackAddr (s.reg 14 + 2)) 2 (.pop rd) ∧
    (s.Readable (stackAddr (s.reg 14 + 2)) 2 → ∃ t, exec (.pop rd) s = .next t ∧
      PairHolds t rd 14 (s.byteAt (stackAddr (s.reg 14 + 2)) ++ s.byteAt (stackAddr (s.reg 14 + 2) + 1))
        (s.reg 14 + 2) ∧
      RegsSameExcept s t [rd, 14] ∧ FlagsSame s t ∧ MemSame s t ∧ Advanced s t 3 ∧ ControlSame s t))

/-- PSH of one register followed by POP of another, not R14, copies the first to the second and restores R14 (R188). -/
def Obligations.PushThenPopCopies : Prop :=
  ∀ (ra rb : RegNum) (s : State), rb ≠ 14 → s.Writable (stackAddr (s.reg 14)) 2 →
    s.Readable (stackAddr (s.reg 14)) 2 →
    ∃ t u, exec (.psh ra) s = .next t ∧ exec (.pop rb) t = .next u ∧ u.reg rb = s.reg ra ∧ u.reg 14 = s.reg 14 ∧
      RegsSameExcept s u [rb, 14]

/-- JSR pushes the address of the next instruction, when it fits 16 bits, and goes to its target; when it does not fit, JSR
stops as unpredictable (R191, under `RETADDR_MODE = half16`). -/
def Obligations.JsrResult : Prop :=
  (∀ target, encode (.jsr target) = [0x00, 0x15] ++ wordBytes target) ∧
  (∀ target s, s.params.retaddrMode = .half16 → (s.pc + 6).toNat < 65536 →
    StoreStops s (stackAddr (s.reg 14)) 2 (.jsr target)) ∧
  (∀ target s, s.params.retaddrMode = .half16 → (s.pc + 6).toNat < 65536 → s.Writable (stackAddr (s.reg 14)) 2 →
    ∃ t, exec (.jsr target) s = .next t ∧ t.pc = target ∧
      t.byteAt (stackAddr (s.reg 14)) = (s.pc + 6).extractLsb' 8 8 ∧
      t.byteAt (stackAddr (s.reg 14) + 1) = (s.pc + 6).extractLsb' 0 8 ∧
      MemSameOutside s t (stackAddr (s.reg 14)) 2 ∧ t.reg 14 = s.reg 14 - 2 ∧ RegsSameExcept s t [14] ∧
      FlagsSame s t ∧ ControlSame s t) ∧
  (∀ target s, s.params.retaddrMode = .half16 → 65536 ≤ (s.pc + 6).toNat →
    exec (.jsr target) s = .fault (.unpredictable "JSR return address above 0xFFFF"))

/-- RTS adds 2 to R14 and goes to the halfword there, zero-extended (R192, under `RETADDR_MODE = half16`). -/
def Obligations.RtsResult : Prop :=
  encode .rts = [0x00, 0x16] ∧
  (∀ s : State, s.params.retaddrMode = .half16 → LoadStops s (stackAddr (s.reg 14 + 2)) 2 .rts) ∧
  (∀ s : State, s.params.retaddrMode = .half16 → s.Readable (stackAddr (s.reg 14 + 2)) 2 →
    ∃ t, exec .rts s = .next t ∧
      t.pc.toNat = (s.byteAt (stackAddr (s.reg 14 + 2))).toNat * 256 +
        (s.byteAt (stackAddr (s.reg 14 + 2) + 1)).toNat ∧
      t.reg 14 = s.reg 14 + 2 ∧ RegsSameExcept s t [14] ∧ FlagsSame s t ∧ MemSame s t ∧ ControlSame s t)

/-- Under `RETADDR_MODE = word32`, whose stack layout the spec does not define, JSR and RTS are refused (R190, U19; that
the model refuses before it looks at anything else is its own choice, log 13). -/
def Obligations.WordReturnAddressRefused : Prop :=
  (∀ target s, s.params.retaddrMode = .word32 → exec (.jsr target) s = .refused .returnAddressLayout) ∧
  (∀ s : State, s.params.retaddrMode = .word32 → exec .rts s = .refused .returnAddressLayout)

/-- A call and the return behind it: RTS after JSR goes to the instruction behind JSR and restores every register
(R190 to R192). -/
def Obligations.ReturnGoesBehindTheCall : Prop :=
  ∀ (target : Addr) (s : State), s.params.retaddrMode = .half16 → (s.pc + 6).toNat < 65536 →
    s.Writable (stackAddr (s.reg 14)) 2 → s.Readable (stackAddr (s.reg 14)) 2 →
    ∃ t u, exec (.jsr target) s = .next t ∧ exec .rts t = .next u ∧ u.pc = s.pc + 6 ∧ RegsSameExcept s u []

/-! System control and reset. -/

/-- NOP, WFI, ENI and DSI do nothing but go on by 2 bytes (R195, R197, R198, R199). -/
def Obligations.NoOperations : Prop :=
  encode .nop = [0x00, 0x00] ∧ encode .wfi = [0x00, 0x17] ∧ encode .eni = [0x00, 0x18] ∧ encode .dsi = [0x00, 0x19] ∧
  ∀ (i : Instr) (s : State), i = .nop ∨ i = .wfi ∨ i = .eni ∨ i = .dsi →
    ∃ t, exec i s = .next t ∧ OnlyPc s t ∧ Advanced s t 2

/-- A reset state is not halted and holds the entry point, registers and flags it is given (R35). That `State.reset` has
every register and both flags at zero and `pc` at 0x1000 is the model's choice (log 3, 4). -/
def Obligations.ResetState : Prop :=
  (∀ p a rs z v m, (State.boot p a rs z v m).halted = false ∧ (State.boot p a rs z v m).pc = a ∧
    (State.boot p a rs z v m).regs = rs ∧ (State.boot p a rs z v m).z = z ∧ (State.boot p a rs z v m).v = v ∧
    (State.boot p a rs z v m).mem = m ∧ (State.boot p a rs z v m).params = p) ∧
  (State.reset.halted = false ∧ State.reset.pc = 0x1000 ∧ (∀ r, State.reset.reg r = 0) ∧ State.reset.z = false ∧
    State.reset.v = false)

/-- A loaded program is the program text (R7, R55, R231). A load places its bytes, adds exactly their addresses to the
text and changes no other byte, register, flag or parameter. A run starts not halted at the entry point, with the
platform's registers, flags and other parameters, with `TEXT` equal to the set of the listing's addresses, its data outside
them, and the listing's bytes at them where no two of its runs of bytes overlap. That the platform maps those addresses is
its own parameter (R42). -/
def Obligations.LoadedProgramIsText : Prop :=
  (∀ (s : State) (a : Addr) (bs : List Byte), bs.length ≤ 2 ^ 32 →
    (∀ k (h : k < bs.length), (s.load a bs).byteAt (a + BitVec.ofNat 32 k) = bs[k]) ∧
    (∀ c, (s.load a bs).inText c = true ↔ (∃ k, k < bs.length ∧ c = a + BitVec.ofNat 32 k) ∨ s.inText c = true) ∧
    MemSameOutside s (s.load a bs) a bs.length ∧ RegsSameExcept s (s.load a bs) [] ∧ FlagsSame s (s.load a bs) ∧
    (s.load a bs).pc = s.pc ∧ (s.load a bs).halted = s.halted ∧
    (s.load a bs).params = { s.params with text := (s.load a bs).params.text }) ∧
  (∀ (p : Params) (entry : Addr) (rs : Vector Half 16) (z v : Bool) (data : Memory)
      (program : List (Addr × List Byte)) (s : State), s = State.startOfRun p entry rs z v data program →
    (∀ e ∈ program, e.2.length ≤ 2 ^ 32) →
    s.halted = false ∧ s.pc = entry ∧ s.regs = rs ∧ s.z = z ∧ s.v = v ∧
    s.params = { p with text := s.params.text } ∧
    (∀ c, s.inText c = true ↔ ∃ e ∈ program, ∃ k, k < e.2.length ∧ c = e.1 + BitVec.ofNat 32 k) ∧
    (∀ c, s.inText c = false → s.byteAt c = Memory.read data c.toNat) ∧
    (program.Pairwise (fun e f => ∀ j, j < e.2.length → ∀ k, k < f.2.length →
        e.1 + BitVec.ofNat 32 j ≠ f.1 + BitVec.ofNat 32 k) →
      ∀ e ∈ program, ∀ k (h : k < e.2.length), s.byteAt (e.1 + BitVec.ofNat 32 k) = e.2[k]))
end

