-- ==== Sys2Proof/Laws/Decode.lean ====
section
/-! SUPPORT. The byte-order helpers undo each other, and a register byte names the register it was written for. -/

namespace Sys2Proof.Laws

@[simp] theorem joinHalf_hiByte_loByte (h : Half) : joinHalf (hiByte h) (loByte h) = h := by
  apply BitVec.eq_of_getLsbD_eq
  intro i hi
  simp only [joinHalf, hiByte, loByte, BitVec.getLsbD_append, BitVec.getLsbD_extractLsb']
  split
  · next h8 => simp [h8]
  · next h8 =>
    have h1 : i - 8 < 8 := by omega
    have h2 : 8 + (i - 8) = i := by omega
    simp [h1, h2]

@[simp] theorem hiByte_joinHalf (hi lo : Byte) : hiByte (joinHalf hi lo) = hi := by
  apply BitVec.eq_of_getLsbD_eq
  intro i hi
  unfold hiByte joinHalf
  rw [BitVec.getLsbD_extractLsb', BitVec.getLsbD_append]
  simp [hi]

@[simp] theorem loByte_joinHalf (hi lo : Byte) : loByte (joinHalf hi lo) = lo := by
  apply BitVec.eq_of_getLsbD_eq
  intro i hi
  unfold loByte joinHalf
  rw [BitVec.getLsbD_extractLsb', BitVec.getLsbD_append]
  simp [hi]

@[simp] theorem joinWord_hiHalf_loHalf (w : Word) : joinWord (hiHalf w) (loHalf w) = w := by
  apply BitVec.eq_of_getLsbD_eq
  intro i hi
  simp only [joinWord, hiHalf, loHalf, BitVec.getLsbD_append, BitVec.getLsbD_extractLsb']
  split
  · next h16 => simp [h16]
  · next h16 =>
    have h1 : i - 16 < 16 := by omega
    have h2 : 16 + (i - 16) = i := by omega
    simp [h1, h2]

@[simp] theorem hiHalf_joinWord (hi lo : Half) : hiHalf (joinWord hi lo) = hi := by
  apply BitVec.eq_of_getLsbD_eq
  intro i hi
  unfold hiHalf joinWord
  rw [BitVec.getLsbD_extractLsb', BitVec.getLsbD_append]
  simp [hi]

@[simp] theorem loHalf_joinWord (hi lo : Half) : loHalf (joinWord hi lo) = lo := by
  apply BitVec.eq_of_getLsbD_eq
  intro i hi
  unfold loHalf joinWord
  rw [BitVec.getLsbD_extractLsb', BitVec.getLsbD_append]
  simp [hi]

/-- The byte an encoder writes for a register reads back as that register, under either choice of `REG_HI_NIBBLE`. -/
@[simp] theorem readReg_regByte (p : Params) (r : RegNum) : readReg p (regByte r) = some r := by
  obtain ⟨n, hn⟩ := r
  have h : (BitVec.ofNat 8 n).toNat = n := by simp; omega
  have hf : Fin.ofNat 16 n = ⟨n, hn⟩ := Fin.ext (Nat.mod_eq_of_lt hn)
  unfold readReg regByte
  cases p.regHiNibble <;> simp only [h, hn, hf, if_true]

/-- Under `fault`, a register byte that is read is the one an encoder writes. -/
theorem regByte_of_readReg {p : Params} {b : Byte} {r : RegNum} (hp : p.regHiNibble = .fault)
    (h : readReg p b = some r) : b = regByte r := by
  unfold readReg at h
  rw [hp] at h
  simp only [Option.ite_none_right_eq_some, Option.some.injEq] at h
  obtain ⟨hb, rfl⟩ := h
  apply BitVec.eq_of_toNat_eq
  simp [regByte]
  omega

@[simp] theorem halfBytes_joinHalf (hi lo : Byte) : halfBytes (joinHalf hi lo) = [hi, lo] := by simp [halfBytes]

@[simp] theorem wordBytes_joinWord (w3 w2 w1 w0 : Byte) :
    wordBytes (joinWord (joinHalf w3 w2) (joinHalf w1 w0)) = [w3, w2, w1, w0] := by
  simp [wordBytes]

theorem byte_eq_of_toNat {b : Byte} {n : Nat} (h : b.toNat = n) : b = BitVec.ofNat 8 n := by
  subst h
  simp

/-- Under `ignore`, every byte names a register: the one whose byte is that byte with bits 7:4 cleared. -/
theorem readReg_of_ignore {p : Params} (hp : p.regHiNibble = .ignore) (b : Byte) :
    ∃ r, readReg p b = some r ∧ regByte r = b &&& 0x0F := by
  refine ⟨_, by unfold readReg; rw [hp], ?_⟩
  apply BitVec.eq_of_toNat_eq
  have h : b.toNat &&& 15 = b.toNat % 16 := Nat.and_two_pow_sub_one_eq_mod (n := 4) (x := b.toNat)
  simp [regByte, h]
  omega

/-- The decoder goes on exactly where the pair is defined, its layout known, the bytes all there and the register bytes
admitted. -/
theorem decode_eq_ok {p : Params} {b0 b1 : Byte} {ops : List Byte} {x : Instr × List Byte} :
    decode p (b0 :: b1 :: ops) = .ok x ↔ ∃ form, opcodeForm b1.toNat b0.toNat = some form ∧
      layoutKnown p form = true ∧ form.length ≤ ops.length + 2 ∧ readOperands p form ops = some x := by
  rw [decode]
  cases opcodeForm b1.toNat b0.toNat with
  | none => simp
  | some form =>
    cases hl : layoutKnown p form
    · simp [hl]
    · by_cases hlen : ops.length + 2 < form.length
      · simp [hl, hlen]
      · cases hr : readOperands p form ops <;> simp [hl, hlen, hr]
        omega

/-! What `readOperands` gives, format by format. -/

section
variable {p : Params} {ops : List Byte} {x : Instr × List Byte}

theorem readOperands_n {i : Instr} : readOperands p (.n i) ops = some x ↔ x = (i, ops) := by
  simp [readOperands, eq_comm]

theorem readOperands_r {f : RegNum → Instr} : readOperands p (.r f) ops = some x ↔
    ∃ b rest d, ops = b :: rest ∧ readReg p b = some d ∧ x = (f d, rest) := by
  rcases ops with _ | ⟨b, rest⟩ <;> simp [readOperands, eq_comm (a := x)]

theorem readOperands_rr {f : RegNum → RegNum → Instr} : readOperands p (.rr f) ops = some x ↔
    ∃ b c rest d n, ops = b :: c :: rest ∧ readReg p b = some d ∧ readReg p c = some n ∧ x = (f d n, rest) := by
  rcases ops with _ | ⟨b, _ | ⟨c, rest⟩⟩ <;> simp [readOperands, eq_comm (a := x), Option.bind_eq_some_iff]

theorem readOperands_ri {f : RegNum → Half → Instr} : readOperands p (.ri f) ops = some x ↔
    ∃ b i1 i0 rest d, ops = b :: i1 :: i0 :: rest ∧ readReg p b = some d ∧ x = (f d (joinHalf i1 i0), rest) := by
  rcases ops with _ | ⟨b, _ | ⟨i1, _ | ⟨i0, rest⟩⟩⟩ <;> simp [readOperands, eq_comm (a := x)]

theorem readOperands_rrr {f : RegNum → RegNum → RegNum → Instr} : readOperands p (.rrr f) ops = some x ↔
    ∃ b c e rest d n m, ops = b :: c :: e :: rest ∧ readReg p b = some d ∧ readReg p c = some n ∧
      readReg p e = some m ∧ x = (f d n m, rest) := by
  rcases ops with _ | ⟨b, _ | ⟨c, _ | ⟨e, rest⟩⟩⟩ <;>
    simp [readOperands, eq_comm (a := x), Option.bind_eq_some_iff]

theorem readOperands_a {f : Word → Instr} : readOperands p (.a f) ops = some x ↔
    ∃ w3 w2 w1 w0 rest, ops = w3 :: w2 :: w1 :: w0 :: rest ∧
      x = (f (joinWord (joinHalf w3 w2) (joinHalf w1 w0)), rest) := by
  rcases ops with _ | ⟨w3, _ | ⟨w2, _ | ⟨w1, _ | ⟨w0, rest⟩⟩⟩⟩ <;> simp [readOperands, eq_comm (a := x)]

theorem readOperands_ra {f : RegNum → Word → Instr} : readOperands p (.ra f) ops = some x ↔
    ∃ b w3 w2 w1 w0 rest d, ops = b :: w3 :: w2 :: w1 :: w0 :: rest ∧ readReg p b = some d ∧
      x = (f d (joinWord (joinHalf w3 w2) (joinHalf w1 w0)), rest) := by
  rcases ops with _ | ⟨b, _ | ⟨w3, _ | ⟨w2, _ | ⟨w1, _ | ⟨w0, rest⟩⟩⟩⟩⟩ <;>
    simp [readOperands, eq_comm (a := x)]

theorem readOperands_rra {f : RegNum → RegNum → Word → Instr} : readOperands p (.rra f) ops = some x ↔
    ∃ b c w3 w2 w1 w0 rest d n, ops = b :: c :: w3 :: w2 :: w1 :: w0 :: rest ∧ readReg p b = some d ∧
      readReg p c = some n ∧ x = (f d n (joinWord (joinHalf w3 w2) (joinHalf w1 w0)), rest) := by
  rcases ops with _ | ⟨b, _ | ⟨c, _ | ⟨w3, _ | ⟨w2, _ | ⟨w1, _ | ⟨w0, rest⟩⟩⟩⟩⟩⟩ <;>
    simp [readOperands, eq_comm (a := x), Option.bind_eq_some_iff]

theorem readOperands_rrra {f : RegNum → RegNum → RegNum → Word → Instr} :
    readOperands p (.rrra f) ops = some x ↔
    ∃ b c e w3 w2 w1 w0 rest d m n, ops = b :: c :: e :: w3 :: w2 :: w1 :: w0 :: rest ∧ readReg p b = some d ∧
      readReg p c = some m ∧ readReg p e = some n ∧
      x = (f d m n (joinWord (joinHalf w3 w2) (joinHalf w1 w0)), rest) := by
  rcases ops with _ | ⟨b, _ | ⟨c, _ | ⟨e, _ | ⟨w3, _ | ⟨w2, _ | ⟨w1, _ | ⟨w0, rest⟩⟩⟩⟩⟩⟩⟩ <;>
    simp [readOperands, eq_comm (a := x), Option.bind_eq_some_iff]

end

/-- The operands take as many bytes as the form's length says. -/
theorem readOperands_length {p : Params} {form : Form} {ops rest : List Byte} {i : Instr}
    (h : readOperands p form ops = some (i, rest)) : ops.length + 2 = form.length + rest.length := by
  cases form with
  | n => cases readOperands_n.mp h; simp [Form.length]; omega
  | r => obtain ⟨_, _, _, rfl, _, h⟩ := readOperands_r.mp h; cases h; simp [Form.length]; omega
  | rr => obtain ⟨_, _, _, _, _, rfl, _, _, h⟩ := readOperands_rr.mp h; cases h; simp [Form.length]; omega
  | ri => obtain ⟨_, _, _, _, _, rfl, _, h⟩ := readOperands_ri.mp h; cases h; simp [Form.length]; omega
  | rrr => obtain ⟨_, _, _, _, _, _, _, rfl, _, _, _, h⟩ := readOperands_rrr.mp h; cases h; simp [Form.length]; omega
  | a => obtain ⟨_, _, _, _, _, rfl, h⟩ := readOperands_a.mp h; cases h; simp [Form.length]; omega
  | ra => obtain ⟨_, _, _, _, _, _, _, rfl, _, h⟩ := readOperands_ra.mp h; cases h; simp [Form.length]; omega
  | rra =>
    obtain ⟨_, _, _, _, _, _, _, _, _, rfl, _, _, h⟩ := readOperands_rra.mp h
    cases h; simp [Form.length]; omega
  | rrra =>
    obtain ⟨_, _, _, _, _, _, _, _, _, _, _, rfl, _, _, _, h⟩ := readOperands_rrra.mp h
    cases h; simp [Form.length]; omega

/-- Only the instruction's own bytes are read. -/
theorem readOperands_take {p : Params} {form : Form} {ops rest : List Byte} {i : Instr}
    (h : readOperands p form ops = some (i, rest)) :
    readOperands p form (ops.take (form.length - 2)) = some (i, []) := by
  cases form with
  | n => cases readOperands_n.mp h; rfl
  | r => obtain ⟨_, _, _, rfl, h1, h⟩ := readOperands_r.mp h; cases h; exact readOperands_r.mpr ⟨_, _, _, rfl, h1, rfl⟩
  | rr =>
    obtain ⟨_, _, _, _, _, rfl, h1, h2, h⟩ := readOperands_rr.mp h
    cases h; exact readOperands_rr.mpr ⟨_, _, _, _, _, rfl, h1, h2, rfl⟩
  | ri =>
    obtain ⟨_, _, _, _, _, rfl, h1, h⟩ := readOperands_ri.mp h
    cases h; exact readOperands_ri.mpr ⟨_, _, _, _, _, rfl, h1, rfl⟩
  | rrr =>
    obtain ⟨_, _, _, _, _, _, _, rfl, h1, h2, h3, h⟩ := readOperands_rrr.mp h
    cases h; exact readOperands_rrr.mpr ⟨_, _, _, _, _, _, _, rfl, h1, h2, h3, rfl⟩
  | a => obtain ⟨_, _, _, _, _, rfl, h⟩ := readOperands_a.mp h; cases h; exact readOperands_a.mpr ⟨_, _, _, _, _, rfl, rfl⟩
  | ra =>
    obtain ⟨_, _, _, _, _, _, _, rfl, h1, h⟩ := readOperands_ra.mp h
    cases h; exact readOperands_ra.mpr ⟨_, _, _, _, _, _, _, rfl, h1, rfl⟩
  | rra =>
    obtain ⟨_, _, _, _, _, _, _, _, _, rfl, h1, h2, h⟩ := readOperands_rra.mp h
    cases h; exact readOperands_rra.mpr ⟨_, _, _, _, _, _, _, _, _, rfl, h1, h2, rfl⟩
  | rrra =>
    obtain ⟨_, _, _, _, _, _, _, _, _, _, _, rfl, h1, h2, h3, h⟩ := readOperands_rrra.mp h
    cases h; exact readOperands_rrra.mpr ⟨_, _, _, _, _, _, _, _, _, _, _, rfl, h1, h2, h3, rfl⟩

end Sys2Proof.Laws
end

