-- ==== Sys2Proof/Laws/Memory.lean ====
section
/-! SUPPORT. Memory: what a read gives after a write, and that every operation keeps the canonical form. -/

namespace Sys2Proof.Machine.Laws

/-- The next address of an access, counted from the next byte. -/
theorem add_ofNat_succ (a : Addr) (k : Nat) : a + BitVec.ofNat 32 (k + 1) = a + 1 + BitVec.ofNat 32 k := by
  rw [BitVec.add_assoc, Nat.add_comm k 1, BitVec.ofNat_add]
  rfl

/-! Reads after writes, for any list. -/

theorem read_erase (m : Memory) (a c : Nat) :
    Memory.read (Memory.erase m a) c = if a = c then Memory.unlistedByte else Memory.read m c := by
  induction m with
  | nil => simp [Memory.erase, Memory.read]
  | cons e m ih =>
    obtain ⟨k, v⟩ := e
    by_cases hk : k = a
    · subst hk
      simp only [Memory.erase, if_true, ih, Memory.read]
      split <;> simp_all
    · simp only [Memory.erase, if_neg hk, Memory.read, ih]
      split
      · next h => rw [if_neg]; omega
      · rfl

theorem read_place (m : Memory) (a c : Nat) (b : Byte) (h : ∀ e ∈ m, e.1 ≠ a) :
    Memory.read (Memory.place m a b) c = if a = c then b else Memory.read m c := by
  induction m with
  | nil => simp [Memory.place, Memory.read]
  | cons e m ih =>
    obtain ⟨k, v⟩ := e
    have hk : k ≠ a := h _ List.mem_cons_self
    simp only [Memory.place]
    split
    · simp [Memory.read]
    · simp only [Memory.read, ih (fun e he => h e (by simp [he]))]
      split
      · next h2 => rw [if_neg]; omega
      · rfl

theorem mem_erase {m : Memory} {a : Nat} {e : Host.Cell} (h : e ∈ Memory.erase m a) : e ∈ m ∧ e.1 ≠ a := by
  induction m with
  | nil => simp [Memory.erase] at h
  | cons c m ih =>
    obtain ⟨k, v⟩ := c
    simp only [Memory.erase] at h
    split at h
    · exact ⟨by simp [(ih h).1], (ih h).2⟩
    · rcases List.mem_cons.mp h with rfl | h
      · exact ⟨by simp, by assumption⟩
      · exact ⟨by simp [(ih h).1], (ih h).2⟩

theorem mem_place {m : Memory} {a : Nat} {b : Byte} {e : Host.Cell} (h : e ∈ Memory.place m a b) :
    e = (a, b) ∨ e ∈ m := by
  induction m with
  | nil => simpa [Memory.place] using h
  | cons c m ih =>
    obtain ⟨k, v⟩ := c
    simp only [Memory.place] at h
    split at h
    · simpa using h
    · rcases List.mem_cons.mp h with rfl | h
      · simp
      · rcases ih h with h | h <;> simp [h]

/-- A read after a write gives the byte written at its address and what was there elsewhere. -/
theorem read_write (m : Memory) (a c : Nat) (b : Byte) :
    Memory.read (Memory.write m a b) c = if a = c then b else Memory.read m c := by
  unfold Memory.write
  split
  · next h => rw [read_erase, h]
  · rw [read_place _ _ _ _ fun e he => (mem_erase he).2, read_erase]
    split <;> rfl

/-- An entry after a write is the byte written, or was there before. -/
theorem mem_write {m : Memory} {a : Nat} {b : Byte} {e : Host.Cell} (h : e ∈ Memory.write m a b) :
    e = (a, b) ∨ e ∈ m := by
  unfold Memory.write at h
  split at h
  · exact .inr (mem_erase h).1
  · rcases mem_place h with h | h
    · exact .inl h
    · exact .inr (mem_erase h).1

/-! The canonical form. -/

theorem wf_cons {k : Nat} {v : Byte} {m : Memory} :
    Memory.wf ((k, v) :: m) = true ↔
      (k < 4294967296 ∧ v ≠ Memory.unlistedByte ∧ ∀ e ∈ m, k < e.1) ∧ Memory.wf m = true := by
  simp [Memory.wf, and_assoc]

theorem wf_erase {m : Memory} (a : Nat) (h : Memory.wf m = true) : Memory.wf (Memory.erase m a) = true := by
  induction m with
  | nil => rfl
  | cons e m ih =>
    obtain ⟨k, v⟩ := e
    obtain ⟨⟨h1, h2, h3⟩, h4⟩ := wf_cons.mp h
    simp only [Memory.erase]
    split
    · exact ih h4
    · exact wf_cons.mpr ⟨⟨h1, h2, fun e he => h3 e (mem_erase he).1⟩, ih h4⟩

theorem wf_place {m : Memory} {a : Nat} {b : Byte} (h : Memory.wf m = true) (hn : ∀ e ∈ m, e.1 ≠ a)
    (ha : a < 4294967296) (hb : b ≠ Memory.unlistedByte) : Memory.wf (Memory.place m a b) = true := by
  induction m with
  | nil => exact wf_cons.mpr ⟨⟨ha, hb, by simp⟩, rfl⟩
  | cons e m ih =>
    obtain ⟨k, v⟩ := e
    obtain ⟨⟨h1, h2, h3⟩, h4⟩ := wf_cons.mp h
    have hk : k ≠ a := hn _ List.mem_cons_self
    simp only [Memory.place]
    split
    · next hlt =>
      refine wf_cons.mpr ⟨⟨ha, hb, fun e he => ?_⟩, h⟩
      rcases List.mem_cons.mp he with rfl | he
      · exact hlt
      · have := h3 e he; omega
    · refine wf_cons.mpr ⟨⟨h1, h2, fun e he => ?_⟩, ih h4 fun e he => hn e (by simp [he])⟩
      rcases mem_place he with rfl | he
      · show k < a; omega
      · exact h3 e he

/-- A write keeps the canonical form. -/
theorem wf_write {m : Memory} {a : Nat} {b : Byte} (h : Memory.wf m = true) (ha : a < 4294967296) :
    Memory.wf (Memory.write m a b) = true := by
  unfold Memory.write
  split
  · exact wf_erase a h
  · exact wf_place (wf_erase a h) (fun e he => (mem_erase he).2) ha (by assumption)

/-- Writing bytes keeps the canonical form. -/
theorem wf_writeBytes (bs : List Byte) : ∀ (m : Memory) (a : Addr), Memory.wf m = true →
    Memory.wf (Memory.writeBytes m a bs) = true := by
  induction bs with
  | nil => exact fun _ _ h => h
  | cons b bs ih => exact fun m a h => ih _ _ (wf_write h a.isLt)

/-- An entry after writing bytes lies at one of their addresses, or was there before. -/
theorem mem_writeBytes (bs : List Byte) : ∀ (m : Memory) (a : Addr) (e : Host.Cell),
    e ∈ Memory.writeBytes m a bs → (∃ k, k < bs.length ∧ e.1 = (a + BitVec.ofNat 32 k).toNat) ∨ e ∈ m := by
  induction bs with
  | nil => exact fun _ _ _ h => .inr h
  | cons b bs ih =>
    intro m a e h
    rcases ih _ _ _ h with ⟨k, hk, he⟩ | h
    · refine .inl ⟨k + 1, by simpa using hk, he.trans ?_⟩
      rw [add_ofNat_succ]
    · rcases mem_write h with rfl | h
      · exact .inl ⟨0, by simp, by simp⟩
      · exact .inr h

/-- Writing bytes leaves every other address alone. -/
theorem read_writeBytes_of_ne (bs : List Byte) : ∀ (m : Memory) (a c : Addr),
    (∀ k, k < bs.length → c ≠ a + BitVec.ofNat 32 k) →
    Memory.read (Memory.writeBytes m a bs) c.toNat = Memory.read m c.toNat := by
  induction bs with
  | nil => exact fun _ _ _ _ => rfl
  | cons b bs ih =>
    intro m a c h
    rw [Memory.writeBytes, ih, read_write, if_neg]
    · intro e
      exact h 0 (by simp) (by simpa using BitVec.eq_of_toNat_eq e.symm)
    · intro k hk e
      exact h (k + 1) (by simpa using hk) (e.trans (add_ofNat_succ a k).symm)

/-- Writing fewer than 2^32 bytes puts each at its address. -/
theorem read_writeBytes_getElem (bs : List Byte) : ∀ (m : Memory) (a : Addr) (k : Nat) (h : k < bs.length),
    bs.length ≤ 4294967296 →
    Memory.read (Memory.writeBytes m a bs) (a + BitVec.ofNat 32 k).toNat = bs[k] := by
  induction bs with
  | nil => exact fun _ _ _ h => absurd h (by simp)
  | cons b bs ih =>
    intro m a k hk hl
    rw [List.length_cons] at hl hk
    cases k with
    | zero =>
      rw [Memory.writeBytes, read_writeBytes_of_ne, read_write]
      · simp
      · intro j hj e
        have := congrArg BitVec.toNat e
        have h1 : (1 : Addr).toNat = 1 := rfl
        simp only [BitVec.toNat_add, BitVec.toNat_ofNat, h1] at this
        have ha := a.isLt
        omega
    | succ k =>
      rw [Memory.writeBytes, add_ofNat_succ, ih _ _ k (by omega) (by omega)]
      simp

/-- The memory of every reset state with nothing loaded is in the canonical form, `State.reset`'s among them. -/
theorem wf_boot_mem (p : Params) (a : Addr) (rs : Vector Half 16) (z v : Bool) :
    Memory.wf (State.boot p a rs z v []).mem = true := rfl

theorem wf_reset_mem : Memory.wf State.reset.mem = true := rfl

end Sys2Proof.Machine.Laws
end

