-- ==== Sys2Proof/Laws/State.lean ====
section
/-! SUPPORT. What each update of State does to each field, and to the register, memory and map reads. -/

namespace Sys2Proof.Machine.Laws

variable (s : State)

@[simp] theorem setReg_regs (r : RegNum) (x : Half) : (s.setReg r x).regs = s.regs.set r.val x r.isLt := rfl
@[simp] theorem setReg_pc (r : RegNum) (x : Half) : (s.setReg r x).pc = s.pc := rfl
@[simp] theorem setReg_z (r : RegNum) (x : Half) : (s.setReg r x).z = s.z := rfl
@[simp] theorem setReg_v (r : RegNum) (x : Half) : (s.setReg r x).v = s.v := rfl
@[simp] theorem setReg_halted (r : RegNum) (x : Half) : (s.setReg r x).halted = s.halted := rfl
@[simp] theorem setReg_mem (r : RegNum) (x : Half) : (s.setReg r x).mem = s.mem := rfl
@[simp] theorem setReg_params (r : RegNum) (x : Half) : (s.setReg r x).params = s.params := rfl
@[simp] theorem setReg_draws (r : RegNum) (x : Half) : (s.setReg r x).draws = s.draws := rfl
@[simp] theorem setReg_byteAt (r : RegNum) (x : Half) (c : Addr) : (s.setReg r x).byteAt c = s.byteAt c := rfl
@[simp] theorem setReg_isMapped (r : RegNum) (x : Half) (c : Addr) : (s.setReg r x).isMapped c = s.isMapped c := rfl
@[simp] theorem setReg_inText (r : RegNum) (x : Half) (c : Addr) : (s.setReg r x).inText c = s.inText c := rfl

@[simp] theorem setFlags_regs (a b : Bool) : (s.setFlags a b).regs = s.regs := rfl
@[simp] theorem setFlags_pc (a b : Bool) : (s.setFlags a b).pc = s.pc := rfl
@[simp] theorem setFlags_z (a b : Bool) : (s.setFlags a b).z = a := rfl
@[simp] theorem setFlags_v (a b : Bool) : (s.setFlags a b).v = b := rfl
@[simp] theorem setFlags_halted (a b : Bool) : (s.setFlags a b).halted = s.halted := rfl
@[simp] theorem setFlags_mem (a b : Bool) : (s.setFlags a b).mem = s.mem := rfl
@[simp] theorem setFlags_params (a b : Bool) : (s.setFlags a b).params = s.params := rfl
@[simp] theorem setFlags_draws (a b : Bool) : (s.setFlags a b).draws = s.draws := rfl
@[simp] theorem setFlags_reg (a b : Bool) (r : RegNum) : (s.setFlags a b).reg r = s.reg r := rfl
@[simp] theorem setFlags_byteAt (a b : Bool) (c : Addr) : (s.setFlags a b).byteAt c = s.byteAt c := rfl
@[simp] theorem setFlags_isMapped (a b : Bool) (c : Addr) : (s.setFlags a b).isMapped c = s.isMapped c := rfl
@[simp] theorem setFlags_inText (a b : Bool) (c : Addr) : (s.setFlags a b).inText c = s.inText c := rfl

@[simp] theorem setPc_regs (a : Addr) : (s.setPc a).regs = s.regs := rfl
@[simp] theorem setPc_pc (a : Addr) : (s.setPc a).pc = a := rfl
@[simp] theorem setPc_z (a : Addr) : (s.setPc a).z = s.z := rfl
@[simp] theorem setPc_v (a : Addr) : (s.setPc a).v = s.v := rfl
@[simp] theorem setPc_halted (a : Addr) : (s.setPc a).halted = s.halted := rfl
@[simp] theorem setPc_mem (a : Addr) : (s.setPc a).mem = s.mem := rfl
@[simp] theorem setPc_params (a : Addr) : (s.setPc a).params = s.params := rfl
@[simp] theorem setPc_draws (a : Addr) : (s.setPc a).draws = s.draws := rfl
@[simp] theorem setPc_reg (a : Addr) (r : RegNum) : (s.setPc a).reg r = s.reg r := rfl
@[simp] theorem setPc_byteAt (a : Addr) (c : Addr) : (s.setPc a).byteAt c = s.byteAt c := rfl
@[simp] theorem setPc_isMapped (a : Addr) (c : Addr) : (s.setPc a).isMapped c = s.isMapped c := rfl
@[simp] theorem setPc_inText (a : Addr) (c : Addr) : (s.setPc a).inText c = s.inText c := rfl

@[simp] theorem advance_regs (n : Nat) : (s.advance n).regs = s.regs := rfl
@[simp] theorem advance_pc (n : Nat) : (s.advance n).pc = s.pc + BitVec.ofNat 32 n := rfl
@[simp] theorem advance_z (n : Nat) : (s.advance n).z = s.z := rfl
@[simp] theorem advance_v (n : Nat) : (s.advance n).v = s.v := rfl
@[simp] theorem advance_halted (n : Nat) : (s.advance n).halted = s.halted := rfl
@[simp] theorem advance_mem (n : Nat) : (s.advance n).mem = s.mem := rfl
@[simp] theorem advance_params (n : Nat) : (s.advance n).params = s.params := rfl
@[simp] theorem advance_draws (n : Nat) : (s.advance n).draws = s.draws := rfl
@[simp] theorem advance_reg (n : Nat) (r : RegNum) : (s.advance n).reg r = s.reg r := rfl
@[simp] theorem advance_byteAt (n : Nat) (c : Addr) : (s.advance n).byteAt c = s.byteAt c := rfl
@[simp] theorem advance_isMapped (n : Nat) (c : Addr) : (s.advance n).isMapped c = s.isMapped c := rfl
@[simp] theorem advance_inText (n : Nat) (c : Addr) : (s.advance n).inText c = s.inText c := rfl

@[simp] theorem bump_regs (n : Nat) : (s.bump n).regs = s.regs := rfl
@[simp] theorem bump_pc (n : Nat) : (s.bump n).pc = s.pc := rfl
@[simp] theorem bump_z (n : Nat) : (s.bump n).z = s.z := rfl
@[simp] theorem bump_v (n : Nat) : (s.bump n).v = s.v := rfl
@[simp] theorem bump_halted (n : Nat) : (s.bump n).halted = s.halted := rfl
@[simp] theorem bump_mem (n : Nat) : (s.bump n).mem = s.mem := rfl
@[simp] theorem bump_params (n : Nat) : (s.bump n).params = s.params := rfl
@[simp] theorem bump_draws (n : Nat) : (s.bump n).draws = s.draws + n := rfl
@[simp] theorem bump_reg (n : Nat) (r : RegNum) : (s.bump n).reg r = s.reg r := rfl
@[simp] theorem bump_byteAt (n : Nat) (c : Addr) : (s.bump n).byteAt c = s.byteAt c := rfl
@[simp] theorem bump_isMapped (n : Nat) (c : Addr) : (s.bump n).isMapped c = s.isMapped c := rfl
@[simp] theorem bump_inText (n : Nat) (c : Addr) : (s.bump n).inText c = s.inText c := rfl

@[simp] theorem halt_regs : (s.halt).regs = s.regs := rfl
@[simp] theorem halt_pc : (s.halt).pc = s.pc := rfl
@[simp] theorem halt_z : (s.halt).z = s.z := rfl
@[simp] theorem halt_v : (s.halt).v = s.v := rfl
@[simp] theorem halt_halted : (s.halt).halted = true := rfl
@[simp] theorem halt_mem : (s.halt).mem = s.mem := rfl
@[simp] theorem halt_params : (s.halt).params = s.params := rfl
@[simp] theorem halt_draws : (s.halt).draws = s.draws := rfl
@[simp] theorem halt_reg (r : RegNum) : (s.halt).reg r = s.reg r := rfl
@[simp] theorem halt_byteAt (c : Addr) : (s.halt).byteAt c = s.byteAt c := rfl
@[simp] theorem halt_isMapped (c : Addr) : (s.halt).isMapped c = s.isMapped c := rfl
@[simp] theorem halt_inText (c : Addr) : (s.halt).inText c = s.inText c := rfl

@[simp] theorem setLow_pc (r : RegNum) (b : Byte) : (s.setLow r b).pc = s.pc := rfl
@[simp] theorem setLow_z (r : RegNum) (b : Byte) : (s.setLow r b).z = s.z := rfl
@[simp] theorem setLow_v (r : RegNum) (b : Byte) : (s.setLow r b).v = s.v := rfl
@[simp] theorem setLow_halted (r : RegNum) (b : Byte) : (s.setLow r b).halted = s.halted := rfl
@[simp] theorem setLow_mem (r : RegNum) (b : Byte) : (s.setLow r b).mem = s.mem := rfl
@[simp] theorem setLow_params (r : RegNum) (b : Byte) : (s.setLow r b).params = s.params := rfl
@[simp] theorem setLow_draws (r : RegNum) (b : Byte) : (s.setLow r b).draws = s.draws := rfl
@[simp] theorem setLow_byteAt (r : RegNum) (b : Byte) (c : Addr) : (s.setLow r b).byteAt c = s.byteAt c := rfl
@[simp] theorem setLow_isMapped (r : RegNum) (b : Byte) (c : Addr) : (s.setLow r b).isMapped c = s.isMapped c := rfl
@[simp] theorem setLow_inText (r : RegNum) (b : Byte) (c : Addr) : (s.setLow r b).inText c = s.inText c := rfl

@[simp] theorem setHigh_pc (r : RegNum) (b : Byte) : (s.setHigh r b).pc = s.pc := rfl
@[simp] theorem setHigh_z (r : RegNum) (b : Byte) : (s.setHigh r b).z = s.z := rfl
@[simp] theorem setHigh_v (r : RegNum) (b : Byte) : (s.setHigh r b).v = s.v := rfl
@[simp] theorem setHigh_halted (r : RegNum) (b : Byte) : (s.setHigh r b).halted = s.halted := rfl
@[simp] theorem setHigh_mem (r : RegNum) (b : Byte) : (s.setHigh r b).mem = s.mem := rfl
@[simp] theorem setHigh_params (r : RegNum) (b : Byte) : (s.setHigh r b).params = s.params := rfl
@[simp] theorem setHigh_draws (r : RegNum) (b : Byte) : (s.setHigh r b).draws = s.draws := rfl
@[simp] theorem setHigh_byteAt (r : RegNum) (b : Byte) (c : Addr) : (s.setHigh r b).byteAt c = s.byteAt c := rfl
@[simp] theorem setHigh_isMapped (r : RegNum) (b : Byte) (c : Addr) : (s.setHigh r b).isMapped c = s.isMapped c := rfl
@[simp] theorem setHigh_inText (r : RegNum) (b : Byte) (c : Addr) : (s.setHigh r b).inText c = s.inText c := rfl

@[simp] theorem setReg_reg (r q : RegNum) (x : Half) : (s.setReg r x).reg q = if q = r then x else s.reg q := by
  simp only [State.reg, State.setReg, Vector.get_eq_getElem, Vector.getElem_set, Fin.val_inj, eq_comm (a := r)]

@[simp] theorem setLow_reg (r q : RegNum) (b : Byte) :
    (s.setLow r b).reg q = if q = r then joinHalf (hiByte (s.reg r)) b else s.reg q := setReg_reg ..

@[simp] theorem setHigh_reg (r q : RegNum) (b : Byte) :
    (s.setHigh r b).reg q = if q = r then joinHalf b (loByte (s.reg r)) else s.reg q := setReg_reg ..

/-! `writePair` in both of its cases. -/

variable (site : AnyofSite) (d e : RegNum) (x y : Half)

@[simp] theorem writePair_pc : (s.writePair site d e x y).pc = s.pc := by
  unfold State.writePair; split <;> rfl

@[simp] theorem writePair_z : (s.writePair site d e x y).z = s.z := by
  unfold State.writePair; split <;> rfl

@[simp] theorem writePair_v : (s.writePair site d e x y).v = s.v := by
  unfold State.writePair; split <;> rfl

@[simp] theorem writePair_halted : (s.writePair site d e x y).halted = s.halted := by
  unfold State.writePair; split <;> rfl

@[simp] theorem writePair_mem : (s.writePair site d e x y).mem = s.mem := by
  unfold State.writePair; split <;> rfl

@[simp] theorem writePair_params : (s.writePair site d e x y).params = s.params := by
  unfold State.writePair; split <;> rfl

@[simp] theorem writePair_byteAt (c : Addr) : (s.writePair site d e x y).byteAt c = s.byteAt c := by
  unfold State.writePair; split <;> rfl

@[simp] theorem writePair_isMapped (c : Addr) : (s.writePair site d e x y).isMapped c = s.isMapped c := by
  unfold State.writePair; split <;> rfl

@[simp] theorem writePair_inText (c : Addr) : (s.writePair site d e x y).inText c = s.inText c := by
  unfold State.writePair; split <;> rfl

theorem writePair_reg_of_eq (q : RegNum) :
    (s.writePair site d d x y).reg q = if q = d then s.anyof site x y else s.reg q := by
  simp [State.writePair]

theorem writePair_reg_of_ne (h : d ≠ e) (q : RegNum) :
    (s.writePair site d e x y).reg q = if q = e then y else if q = d then x else s.reg q := by
  simp [State.writePair, h]

/-- `anyof` is one of its two candidates, whichever the free choice is. -/
theorem anyof_eq_or : s.anyof site x y = x ∨ s.anyof site x y = y := by
  unfold State.anyof; split <;> simp

/-- A register that is neither destination keeps its value. -/
theorem writePair_reg_frame (q : RegNum) (hd : q ≠ d) (he : q ≠ e) : (s.writePair site d e x y).reg q = s.reg q := by
  unfold State.writePair; split <;> simp [hd, he]

end Sys2Proof.Machine.Laws
end

