-- ==== Sys2Proof/Laws/Ops.lean ====
section
/-! SUPPORT. For each shared operation, once, everything it can do; later proofs cite these and do not unfold it. -/

namespace Sys2Proof.Machine.Laws

/-! Sequencing. -/

section
variable {α β : Type}

@[simp] theorem andThen_next (x : α) (f : α → Host.Outcome β Fault Refusal) : andThen (.next x) f = f x := rfl

@[simp] theorem andThen_fault (r : Fault) (f : α → Host.Outcome β Fault Refusal) :
    andThen (.fault r) f = .fault r := rfl

@[simp] theorem andThen_refused (r : Refusal) (f : α → Host.Outcome β Fault Refusal) :
    andThen (.refused r) f = .refused r := rfl

/-- A sequence goes on exactly if both of its parts do. -/
theorem andThen_eq_next {o : Host.Outcome α Fault Refusal} {f : α → Host.Outcome β Fault Refusal} {y : β} :
    andThen o f = .next y ↔ ∃ x, o = .next x ∧ f x = .next y := by
  cases o <;> simp
end

/-! The addresses of an access. -/

theorem mem_accessAddrs {a c : Addr} {n : Nat} :
    c ∈ accessAddrs a n ↔ ∃ k, k < n ∧ c = a + BitVec.ofNat 32 k := by
  simp [accessAddrs, eq_comm]

/-! The lowest address that a test picks. -/

theorem lowest_eq_none {test : Addr → Bool} {l : List Addr} : lowest test l = none ↔ ∀ a ∈ l, test a = false := by
  induction l with
  | nil => simp [lowest]
  | cons a as ih =>
    simp only [lowest, List.forall_mem_cons, ← ih]
    cases h : lowest test as with
    | none => simp
    | some b => simp only [reduceCtorEq, and_false, iff_false]; split <;> simp

theorem lowest_spec {test : Addr → Bool} {l : List Addr} {x : Addr} (h : lowest test l = some x) :
    (x ∈ l ∧ test x = true) ∧ ∀ y ∈ l, test y = true → x.toNat ≤ y.toNat := by
  induction l generalizing x with
  | nil => cases h
  | cons a as ih =>
    rw [lowest] at h
    cases hl : lowest test as with
    | none =>
      rw [hl, Option.ite_none_right_eq_some] at h
      obtain ⟨ha, h⟩ := h
      obtain rfl := Option.some.inj h
      refine ⟨⟨List.mem_cons_self, ha⟩, List.forall_mem_cons.mpr ⟨fun _ => le_rfl, fun y hy ht => ?_⟩⟩
      simp [lowest_eq_none.mp hl y hy] at ht
    | some b =>
      obtain ⟨⟨hb, ht⟩, hle⟩ := ih hl
      rw [hl] at h
      dsimp only at h
      split at h <;> obtain rfl := Option.some.inj h <;> next ha =>
        simp only [Bool.and_eq_true, decide_eq_true_eq, not_and, not_le] at ha
        first
        | exact ⟨⟨List.mem_cons_self, ha.1⟩,
            List.forall_mem_cons.mpr ⟨fun _ => le_rfl, fun y hy hy' => ha.2.trans (hle y hy hy')⟩⟩
        | exact ⟨⟨List.mem_cons_of_mem _ hb, ht⟩, List.forall_mem_cons.mpr ⟨fun h => (ha h).le, hle⟩⟩

/-- The address picked is the lowest of those that pass the test. -/
theorem lowest_eq_some {test : Addr → Bool} {l : List Addr} {x : Addr} :
    lowest test l = some x ↔ (x ∈ l ∧ test x = true) ∧ ∀ y ∈ l, test y = true → x.toNat ≤ y.toNat := by
  refine ⟨lowest_spec, fun ⟨⟨hx, ht⟩, hle⟩ => ?_⟩
  cases h : lowest test l with
  | none => simp [lowest_eq_none.mp h x hx] at ht
  | some y =>
    obtain ⟨⟨hy, hty⟩, hyl⟩ := lowest_spec h
    exact congrArg some (BitVec.eq_of_toNat_eq (Nat.le_antisymm (hyl x hx ht) (hle y hy hty)))

/-- No address of the access is picked exactly if none passes the test. -/
theorem lowest_accessAddrs_eq_none {test : Addr → Bool} {a : Addr} {n : Nat} :
    lowest test (accessAddrs a n) = none ↔ ∀ k, k < n → test (a + BitVec.ofNat 32 k) = false := by
  simp [lowest_eq_none, accessAddrs]

/-- An address of the access that passes the test, and below which none does, is the one picked. -/
theorem lowest_accessAddrs_eq_some {test : Addr → Bool} {a : Addr} {n k : Nat} (hk : k < n)
    (ht : test (a + BitVec.ofNat 32 k) = true)
    (hl : ∀ j, j < n → test (a + BitVec.ofNat 32 j) = true →
      (a + BitVec.ofNat 32 k).toNat ≤ (a + BitVec.ofNat 32 j).toNat) :
    lowest test (accessAddrs a n) = some (a + BitVec.ofNat 32 k) := by
  refine lowest_eq_some.mpr ⟨⟨mem_accessAddrs.mpr ⟨k, hk, rfl⟩, ht⟩, fun y hy => ?_⟩
  obtain ⟨j, hj, rfl⟩ := mem_accessAddrs.mp hy
  exact hl j hj

theorem lowestUnmapped_eq_none {s : State} {a : Addr} {n : Nat} :
    s.lowestUnmapped a n = none ↔ ∀ k, k < n → s.isMapped (a + BitVec.ofNat 32 k) = true := by
  simp [State.lowestUnmapped, lowest_accessAddrs_eq_none]

theorem lowestUnmapped_eq_some {s : State} {a : Addr} {n k : Nat} (hk : k < n)
    (hu : s.isMapped (a + BitVec.ofNat 32 k) = false)
    (hl : ∀ j, j < n → s.isMapped (a + BitVec.ofNat 32 j) = false →
      (a + BitVec.ofNat 32 k).toNat ≤ (a + BitVec.ofNat 32 j).toNat) :
    s.lowestUnmapped a n = some (a + BitVec.ofNat 32 k) :=
  lowest_accessAddrs_eq_some hk (by simp [hu]) fun j hj h => hl j hj (by simpa using h)

theorem lowestInText_eq_none {s : State} {a : Addr} {n : Nat} :
    s.lowestInText a n = none ↔ ∀ k, k < n → s.inText (a + BitVec.ofNat 32 k) = false :=
  lowest_accessAddrs_eq_none

theorem lowestInText_eq_some {s : State} {a : Addr} {n k : Nat} (hk : k < n)
    (ht : s.inText (a + BitVec.ofNat 32 k) = true)
    (hl : ∀ j, j < n → s.inText (a + BitVec.ofNat 32 j) = true →
      (a + BitVec.ofNat 32 k).toNat ≤ (a + BitVec.ofNat 32 j).toNat) :
    s.lowestInText a n = some (a + BitVec.ofNat 32 k) := lowest_accessAddrs_eq_some hk ht hl

/-! Data accesses: when they go on. -/

theorem loadFault_eq_none {s : State} {a : Addr} {n : Nat} :
    s.loadFault a n = none ↔
      (s.params.dataAlignFault = true → a.toNat % n = 0) ∧
        ∀ k, k < n → s.isMapped (a + BitVec.ofNat 32 k) = true := by
  unfold State.loadFault
  split
  · next h => simp_all
  · next h =>
    have h' : s.params.dataAlignFault = true → a.toNat % n = 0 := by simpa using h
    rw [Option.map_eq_none_iff, lowestUnmapped_eq_none]
    exact ⟨fun hm => ⟨h', hm⟩, And.right⟩

theorem storeFault_eq_none {s : State} {a : Addr} {n : Nat} : s.storeFault a n = none ↔ s.Writable a n := by
  unfold State.storeFault State.Writable
  cases h : s.loadFault a n with
  | some f =>
    have : ¬s.loadFault a n = none := by simp [h]
    rw [loadFault_eq_none] at this
    simp only [reduceCtorEq, false_iff]
    tauto
  | none =>
    obtain ⟨ha, hm⟩ := loadFault_eq_none.mp h
    dsimp only
    rw [Option.map_eq_none_iff, lowestInText_eq_none]
    exact ⟨fun ht => ⟨ha, hm, ht⟩, fun ht => ht.2.2⟩

theorem loadRefusal_eq_none {s : State} {a : Addr} {n : Nat} :
    s.loadRefusal a n = none ↔
      (s.params.unifiedMemory = false → ∀ k, k < n → s.inText (a + BitVec.ofNat 32 k) = false) := by
  unfold State.loadRefusal
  cases s.params.unifiedMemory
  · rw [if_neg (by decide), Option.map_eq_none_iff, lowestInText_eq_none]
    simp
  · simp

theorem readable_iff {s : State} {a : Addr} {n : Nat} :
    s.Readable a n ↔ s.loadFault a n = none ∧ s.loadRefusal a n = none := by
  rw [loadFault_eq_none, loadRefusal_eq_none, State.Readable, and_assoc]

/-- A data load goes on exactly where its bytes are readable, and then with its value. -/
theorem checkedLoad_eq_next {α : Type} {s : State} {a : Addr} {n : Nat} {x y : α} :
    s.checkedLoad a n x = .next y ↔ s.Readable a n ∧ x = y := by
  rw [readable_iff]
  unfold State.checkedLoad
  cases s.loadFault a n <;> cases s.loadRefusal a n <;> simp

theorem checkedLoad_of_readable {α : Type} {s : State} {a : Addr} {n : Nat} (x : α) (h : s.Readable a n) :
    s.checkedLoad a n x = .next x := checkedLoad_eq_next.mpr ⟨h, rfl⟩

theorem checkedLoad_of_fault {α : Type} {s : State} {a : Addr} {n : Nat} {f : Fault} (x : α)
    (h : s.loadFault a n = some f) : s.checkedLoad a n x = .fault f := by simp [State.checkedLoad, h]

theorem checkedLoad_of_refusal {α : Type} {s : State} {a : Addr} {n : Nat} {r : Refusal} (x : α)
    (h : s.loadFault a n = none) (hr : s.loadRefusal a n = some r) : s.checkedLoad a n x = .refused r := by
  simp [State.checkedLoad, h, hr]

/-- A data store goes on exactly where its bytes are writable, and then changes only memory. -/
theorem storeBytes_eq_next {s t : State} {a : Addr} {bs : List Byte} :
    s.storeBytes a bs = .next t ↔
      s.Writable a bs.length ∧ t = { s with mem := Memory.writeBytes s.mem a bs } := by
  rw [← storeFault_eq_none]
  unfold State.storeBytes
  cases s.storeFault a bs.length <;> simp [eq_comm]

theorem storeBytes_of_fault {s : State} {a : Addr} {bs : List Byte} {f : Fault}
    (h : s.storeFault a bs.length = some f) : s.storeBytes a bs = .fault f := by simp [State.storeBytes, h]

/-- The bytes of a store are at its addresses afterwards. -/
theorem byteAt_stored (s : State) (a : Addr) (bs : List Byte) (hl : bs.length ≤ 4294967296) (k : Nat)
    (hk : k < bs.length) :
    ({ s with mem := Memory.writeBytes s.mem a bs } : State).byteAt (a + BitVec.ofNat 32 k) = bs[k] :=
  read_writeBytes_getElem bs s.mem a k hk hl

/-- A store leaves every other byte alone. -/
theorem memSameOutside_stored (s : State) (a : Addr) (bs : List Byte) :
    MemSameOutside s { s with mem := Memory.writeBytes s.mem a bs } a bs.length :=
  fun c hc => read_writeBytes_of_ne bs s.mem a c hc

/-! The stack. -/

/-- A push goes on exactly where its two bytes are writable; it stores them and moves R14. -/
theorem pushHalf_eq_next {s t : State} {v : Half} :
    s.pushHalf v = .next t ↔
      s.Writable (stackAddr (s.reg spReg)) 2 ∧
        t = ({ s with mem := Memory.writeBytes s.mem (stackAddr (s.reg spReg)) (halfBytes v) } : State).setReg spReg
          (s.reg spReg - 2) := by
  simp only [State.pushHalf, State.storeHalf, andThen_eq_next, storeBytes_eq_next]
  constructor
  · rintro ⟨x, ⟨hw, rfl⟩, hx⟩
    exact ⟨hw, by simpa [eq_comm] using hx⟩
  · rintro ⟨hw, rfl⟩
    exact ⟨_, ⟨hw, rfl⟩, rfl⟩

/-- A pop's load goes on exactly where the halfword at the incremented pointer is readable. -/
theorem popHalf_eq_next {s : State} {v : Half} :
    s.popHalf = .next v ↔ s.Readable (stackAddr s.popPointer) 2 ∧ v = s.halfAt (stackAddr s.popPointer) := by
  rw [State.popHalf, State.loadHalf, checkedLoad_eq_next, eq_comm (a := v)]

/-! Register pairs. -/

/-- A pair write leaves the pair as `PairHolds` says, whatever the free choice is. -/
theorem pairHolds_writePair (s : State) (site : AnyofSite) (d e : RegNum) (x y : Half) :
    PairHolds (s.writePair site d e x y) d e x y := by
  unfold PairHolds
  split
  · next h =>
    subst h
    simpa [writePair_reg_of_eq] using anyof_eq_or s site x y
  · next h => simp [writePair_reg_of_ne s site d e x y h, h]

/-! Fetching. -/

theorem fetchByte_eq_next {s : State} {a : Addr} {b : Byte} :
    s.fetchByte a = .next b ↔ s.isMapped a = true ∧ b = s.byteAt a := by
  unfold State.fetchByte
  cases s.isMapped a <;> simp [eq_comm (a := b)]

theorem fetchByte_of_mapped {s : State} {a : Addr} (h : s.isMapped a = true) : s.fetchByte a = .next (s.byteAt a) :=
  fetchByte_eq_next.mpr ⟨h, rfl⟩

/-- A fetch goes on exactly where all of its bytes are mapped, and gives them in address order. -/
theorem fetchBytes_eq_next {s : State} {a : Addr} {n : Nat} {bs : List Byte} :
    s.fetchBytes a n = .next bs ↔
      (∀ k, k < n → s.isMapped (a + BitVec.ofNat 32 k) = true) ∧ (accessAddrs a n).map s.byteAt = bs := by
  rw [← lowestUnmapped_eq_none]
  unfold State.fetchBytes
  cases s.lowestUnmapped a n <;> simp

theorem fetchBytes_of_mapped {s : State} {a : Addr} {n : Nat}
    (h : ∀ k, k < n → s.isMapped (a + BitVec.ofNat 32 k) = true) :
    s.fetchBytes a n = .next ((accessAddrs a n).map s.byteAt) := fetchBytes_eq_next.mpr ⟨h, rfl⟩

/-- A fetch stops at its lowest unmapped byte. -/
theorem fetchBytes_of_unmapped {s : State} {a : Addr} {n k : Nat} (hk : k < n)
    (hu : s.isMapped (a + BitVec.ofNat 32 k) = false)
    (hl : ∀ j, j < n → s.isMapped (a + BitVec.ofNat 32 j) = false →
      (a + BitVec.ofNat 32 k).toNat ≤ (a + BitVec.ofNat 32 j).toNat) :
    s.fetchBytes a n = .fault (.accessFault (a + BitVec.ofNat 32 k)) := by
  simp [State.fetchBytes, lowestUnmapped_eq_some hk hu hl]

/-! The shared executions. -/

/-- What the common ALU execution leaves. -/
theorem aluDone_aluApply (op : AluOp) (rd : RegNum) (b : Half) (len : Nat) (s : State) :
    AluDone s (aluApply op rd b len s) rd (aluResult op (s.reg rd) b) (aluOverflow op s.draws (s.reg rd) b) len := by
  refine ⟨?_, ?_, ?_, ?_, ?_, ?_, ?_, ?_⟩
  · simp [aluApply]
  · simp [aluApply, zeroHalf]; rfl
  · simp [aluApply]
  · simp [aluApply, Advanced]
  · intro r hr
    have : r ≠ rd := by simpa using hr
    simp [aluApply, this]
  · intro a; simp [aluApply]
  · simp [aluApply]
  · simp [aluApply]

/-- What the common long-multiply execution leaves. -/
theorem mulDone_mulApply (site : AnyofSite) (r : MulRegs) (p : Word) (v : Bool) (s : State) :
    MulDone s (mulApply site r p v s) r.high r.low p v := by
  refine ⟨?_, ?_, ?_, ?_, ?_, ?_, ?_, ?_⟩
  · have := pairHolds_writePair s site r.high r.low (hiHalf p) (loHalf p)
    simpa [PairHolds, mulApply, hiHalf, loHalf] using this
  · simp [mulApply, zeroWord]; rfl
  · simp [mulApply]
  · simp [mulApply, Advanced]
  · intro q hq
    simp only [List.mem_cons, List.not_mem_nil, or_false, not_or] at hq
    simp [mulApply, writePair_reg_frame _ _ _ _ _ _ _ hq.1 hq.2]
  · intro a; simp [mulApply]
  · simp [mulApply]
  · simp [mulApply]

/-- What a branch leaves: only `pc` may differ, and it is the target or the next instruction's address. -/
theorem branchIf_eq (cond : Bool) (target : Addr) (len : Nat) (s : State) :
    ∃ t, branchIf cond target len s = .next t ∧ OnlyPc s t ∧
      t.pc = if cond then target else s.pc + BitVec.ofNat 32 len := by
  refine ⟨_, rfl, ?_, ?_⟩
  · refine ⟨fun r _ => ?_, ?_, fun a => ?_, ?_⟩ <;> cases cond <;> simp [FlagsSame, ControlSame]
  · cases cond <;> simp

end Sys2Proof.Machine.Laws
end

