-- ==== Sys2Proof/Laws/Load.lean ====
section
/-! SUPPORT. Loading a program: what a load does to each field, to memory and to the program text. -/

namespace Sys2Proof.Machine.Laws

variable (s : State) (a : Addr) (bs : List Byte)

@[simp] theorem load_regs : (s.load a bs).regs = s.regs := rfl
@[simp] theorem load_pc : (s.load a bs).pc = s.pc := rfl
@[simp] theorem load_z : (s.load a bs).z = s.z := rfl
@[simp] theorem load_v : (s.load a bs).v = s.v := rfl
@[simp] theorem load_halted : (s.load a bs).halted = s.halted := rfl
@[simp] theorem load_mem : (s.load a bs).mem = Memory.writeBytes s.mem a bs := rfl
@[simp] theorem load_params :
    (s.load a bs).params = { s.params with text := ⟨a, bs.length⟩ :: s.params.text } := rfl
@[simp] theorem load_draws : (s.load a bs).draws = s.draws := rfl
@[simp] theorem load_reg (r : RegNum) : (s.load a bs).reg r = s.reg r := rfl
@[simp] theorem load_isMapped (c : Addr) : (s.load a bs).isMapped c = s.isMapped c := rfl

/-- An address lies in a region exactly if it is fewer than `size` bytes on from its base, modulo 2^32. -/
theorem sub_lt_iff {a c : Addr} {n : Nat} : (c - a).toNat < n ↔ ∃ k, k < n ∧ c = a + BitVec.ofNat 32 k := by
  constructor
  · exact fun h => ⟨(c - a).toNat, h, by rw [BitVec.ofNat_toNat, BitVec.setWidth_eq, BitVec.add_comm, BitVec.sub_add_cancel]⟩
  · rintro ⟨k, hk, rfl⟩
    rw [BitVec.add_comm, BitVec.add_sub_cancel, BitVec.toNat_ofNat]
    exact (Nat.mod_le k _).trans_lt hk

/-- After a load the text is what it was, and the bytes placed (R7, R231). -/
theorem load_inText {c : Addr} :
    (s.load a bs).inText c = true ↔ (∃ k, k < bs.length ∧ c = a + BitVec.ofNat 32 k) ∨ s.inText c = true := by
  simp only [State.inText, load_params, inRegions, List.any_cons, Bool.or_eq_true, decide_eq_true_eq, sub_lt_iff]

/-- The bytes of a load are at its addresses afterwards. -/
theorem load_byteAt (hl : bs.length ≤ 4294967296) (k : Nat) (hk : k < bs.length) :
    (s.load a bs).byteAt (a + BitVec.ofNat 32 k) = bs[k] := byteAt_stored s a bs hl k hk

/-- A load leaves every other byte alone. -/
theorem load_memSameOutside : MemSameOutside s (s.load a bs) a bs.length := memSameOutside_stored s a bs

/-- A load keeps the canonical form of memory. -/
theorem load_wf (h : Memory.wf s.mem = true) : Memory.wf (s.load a bs).mem = true := wf_writeBytes bs _ a h

/-! A whole listing. -/

/-- Loading a listing changes only memory and the program text. -/
theorem loadProgram_eq (program : List (Addr × List Byte)) :
    ∃ mem text, s.loadProgram program = { s with mem := mem, params := { s.params with text := text } } := by
  induction program generalizing s with
  | nil => exact ⟨_, _, rfl⟩
  | cons c cs ih => exact ih (s.load c.1 c.2)

/-- Loading a listing keeps the canonical form of memory. -/
theorem loadProgram_wf (program : List (Addr × List Byte)) (h : Memory.wf s.mem = true) :
    Memory.wf (s.loadProgram program).mem = true := by
  induction program generalizing s with
  | nil => exact h
  | cons c cs ih => exact ih _ (load_wf s c.1 c.2 h)

/-- The start of a run over canonical data has canonical memory. -/
theorem startOfRun_wf (p : Params) (rs : Vector Half 16) (z v : Bool) {data : Memory}
    (program : List (Addr × List Byte)) (h : Memory.wf data = true) :
    Memory.wf (State.startOfRun p a rs z v data program).mem = true := loadProgram_wf _ program h

end Sys2Proof.Machine.Laws
end

