-- ==== Sys2Proof/Laws/PerInstr.lean ====
section
/-! SUPPORT. The per-instruction family EncodedLength: the encoder writes as many bytes as R64's table says, two to nine,
and the map of R68 has the pair of its first two bytes as a form of that length. -/

namespace Sys2Proof.Laws.EncodedLength

/-- The encoding has the length of R64's table, and its first two bytes select a form of that length. -/
def Statement (i : Instr) : Prop :=
  (encode i).length = i.length ∧ 2 ≤ i.length ∧ i.length ≤ 9 ∧
    (opcodeForm ((encode i).getD 1 0).toNat ((encode i).getD 0 0).toNat).map Form.length = some i.length

theorem nop : Statement (.nop) := ⟨rfl, Nat.le_of_ble_eq_true rfl, Nat.le_of_ble_eq_true rfl, rfl⟩
theorem addImm (rd : RegNum) (imm : Half) : Statement (.addImm rd imm) := ⟨rfl, Nat.le_of_ble_eq_true rfl, Nat.le_of_ble_eq_true rfl, rfl⟩
theorem addReg (rd rn : RegNum) : Statement (.addReg rd rn) := ⟨rfl, Nat.le_of_ble_eq_true rfl, Nat.le_of_ble_eq_true rfl, rfl⟩
theorem addMem (rd : RegNum) (addr : Addr) : Statement (.addMem rd addr) := ⟨rfl, Nat.le_of_ble_eq_true rfl, Nat.le_of_ble_eq_true rfl, rfl⟩
theorem subImm (rd : RegNum) (imm : Half) : Statement (.subImm rd imm) := ⟨rfl, Nat.le_of_ble_eq_true rfl, Nat.le_of_ble_eq_true rfl, rfl⟩
theorem subReg (rd rn : RegNum) : Statement (.subReg rd rn) := ⟨rfl, Nat.le_of_ble_eq_true rfl, Nat.le_of_ble_eq_true rfl, rfl⟩
theorem subMem (rd : RegNum) (addr : Addr) : Statement (.subMem rd addr) := ⟨rfl, Nat.le_of_ble_eq_true rfl, Nat.le_of_ble_eq_true rfl, rfl⟩
theorem mulImm (rd : RegNum) (imm : Half) : Statement (.mulImm rd imm) := ⟨rfl, Nat.le_of_ble_eq_true rfl, Nat.le_of_ble_eq_true rfl, rfl⟩
theorem mulReg (rd rn : RegNum) : Statement (.mulReg rd rn) := ⟨rfl, Nat.le_of_ble_eq_true rfl, Nat.le_of_ble_eq_true rfl, rfl⟩
theorem mulMem (rd : RegNum) (addr : Addr) : Statement (.mulMem rd addr) := ⟨rfl, Nat.le_of_ble_eq_true rfl, Nat.le_of_ble_eq_true rfl, rfl⟩
theorem andImm (rd : RegNum) (imm : Half) : Statement (.andImm rd imm) := ⟨rfl, Nat.le_of_ble_eq_true rfl, Nat.le_of_ble_eq_true rfl, rfl⟩
theorem andReg (rd rn : RegNum) : Statement (.andReg rd rn) := ⟨rfl, Nat.le_of_ble_eq_true rfl, Nat.le_of_ble_eq_true rfl, rfl⟩
theorem andMem (rd : RegNum) (addr : Addr) : Statement (.andMem rd addr) := ⟨rfl, Nat.le_of_ble_eq_true rfl, Nat.le_of_ble_eq_true rfl, rfl⟩
theorem orImm (rd : RegNum) (imm : Half) : Statement (.orImm rd imm) := ⟨rfl, Nat.le_of_ble_eq_true rfl, Nat.le_of_ble_eq_true rfl, rfl⟩
theorem orReg (rd rn : RegNum) : Statement (.orReg rd rn) := ⟨rfl, Nat.le_of_ble_eq_true rfl, Nat.le_of_ble_eq_true rfl, rfl⟩
theorem orMem (rd : RegNum) (addr : Addr) : Statement (.orMem rd addr) := ⟨rfl, Nat.le_of_ble_eq_true rfl, Nat.le_of_ble_eq_true rfl, rfl⟩
theorem xorImm (rd : RegNum) (imm : Half) : Statement (.xorImm rd imm) := ⟨rfl, Nat.le_of_ble_eq_true rfl, Nat.le_of_ble_eq_true rfl, rfl⟩
theorem xorReg (rd rn : RegNum) : Statement (.xorReg rd rn) := ⟨rfl, Nat.le_of_ble_eq_true rfl, Nat.le_of_ble_eq_true rfl, rfl⟩
theorem xorMem (rd : RegNum) (addr : Addr) : Statement (.xorMem rd addr) := ⟨rfl, Nat.le_of_ble_eq_true rfl, Nat.le_of_ble_eq_true rfl, rfl⟩
theorem lshImm (rd : RegNum) (imm : Half) : Statement (.lshImm rd imm) := ⟨rfl, Nat.le_of_ble_eq_true rfl, Nat.le_of_ble_eq_true rfl, rfl⟩
theorem lshReg (rd rn : RegNum) : Statement (.lshReg rd rn) := ⟨rfl, Nat.le_of_ble_eq_true rfl, Nat.le_of_ble_eq_true rfl, rfl⟩
theorem lshMem (rd : RegNum) (addr : Addr) : Statement (.lshMem rd addr) := ⟨rfl, Nat.le_of_ble_eq_true rfl, Nat.le_of_ble_eq_true rfl, rfl⟩
theorem rshImm (rd : RegNum) (imm : Half) : Statement (.rshImm rd imm) := ⟨rfl, Nat.le_of_ble_eq_true rfl, Nat.le_of_ble_eq_true rfl, rfl⟩
theorem rshReg (rd rn : RegNum) : Statement (.rshReg rd rn) := ⟨rfl, Nat.le_of_ble_eq_true rfl, Nat.le_of_ble_eq_true rfl, rfl⟩
theorem rshMem (rd : RegNum) (addr : Addr) : Statement (.rshMem rd addr) := ⟨rfl, Nat.le_of_ble_eq_true rfl, Nat.le_of_ble_eq_true rfl, rfl⟩
theorem movImm (rd : RegNum) (imm : Half) : Statement (.movImm rd imm) := ⟨rfl, Nat.le_of_ble_eq_true rfl, Nat.le_of_ble_eq_true rfl, rfl⟩
theorem movImmPair (rd rn : RegNum) (imm : Word) : Statement (.movImmPair rd rn imm) := ⟨rfl, Nat.le_of_ble_eq_true rfl, Nat.le_of_ble_eq_true rfl, rfl⟩
theorem movReg (rd rn : RegNum) : Statement (.movReg rd rn) := ⟨rfl, Nat.le_of_ble_eq_true rfl, Nat.le_of_ble_eq_true rfl, rfl⟩
theorem movLdLow (rd : RegNum) (addr : Addr) : Statement (.movLdLow rd addr) := ⟨rfl, Nat.le_of_ble_eq_true rfl, Nat.le_of_ble_eq_true rfl, rfl⟩
theorem movLdHigh (rd : RegNum) (addr : Addr) : Statement (.movLdHigh rd addr) := ⟨rfl, Nat.le_of_ble_eq_true rfl, Nat.le_of_ble_eq_true rfl, rfl⟩
theorem movLdHalf (rd : RegNum) (addr : Addr) : Statement (.movLdHalf rd addr) := ⟨rfl, Nat.le_of_ble_eq_true rfl, Nat.le_of_ble_eq_true rfl, rfl⟩
theorem movLdPair (rd rn1 : RegNum) (addr : Addr) : Statement (.movLdPair rd rn1 addr) := ⟨rfl, Nat.le_of_ble_eq_true rfl, Nat.le_of_ble_eq_true rfl, rfl⟩
theorem movStLow (rd : RegNum) (addr : Addr) : Statement (.movStLow rd addr) := ⟨rfl, Nat.le_of_ble_eq_true rfl, Nat.le_of_ble_eq_true rfl, rfl⟩
theorem movStHigh (rd : RegNum) (addr : Addr) : Statement (.movStHigh rd addr) := ⟨rfl, Nat.le_of_ble_eq_true rfl, Nat.le_of_ble_eq_true rfl, rfl⟩
theorem movStHalf (rd : RegNum) (addr : Addr) : Statement (.movStHalf rd addr) := ⟨rfl, Nat.le_of_ble_eq_true rfl, Nat.le_of_ble_eq_true rfl, rfl⟩
theorem movStPair (rd rn1 : RegNum) (addr : Addr) : Statement (.movStPair rd rn1 addr) := ⟨rfl, Nat.le_of_ble_eq_true rfl, Nat.le_of_ble_eq_true rfl, rfl⟩
theorem movLdLowOff (rd rn : RegNum) (off : Word) : Statement (.movLdLowOff rd rn off) := ⟨rfl, Nat.le_of_ble_eq_true rfl, Nat.le_of_ble_eq_true rfl, rfl⟩
theorem movLdHighOff (rd rn : RegNum) (off : Word) : Statement (.movLdHighOff rd rn off) := ⟨rfl, Nat.le_of_ble_eq_true rfl, Nat.le_of_ble_eq_true rfl, rfl⟩
theorem movLdHalfOff (rd rn : RegNum) (off : Word) : Statement (.movLdHalfOff rd rn off) := ⟨rfl, Nat.le_of_ble_eq_true rfl, Nat.le_of_ble_eq_true rfl, rfl⟩
theorem movLdPairOff (rd rd1 rn : RegNum) (off : Word) : Statement (.movLdPairOff rd rd1 rn off) := ⟨rfl, Nat.le_of_ble_eq_true rfl, Nat.le_of_ble_eq_true rfl, rfl⟩
theorem movStLowOff (rd rn : RegNum) (off : Word) : Statement (.movStLowOff rd rn off) := ⟨rfl, Nat.le_of_ble_eq_true rfl, Nat.le_of_ble_eq_true rfl, rfl⟩
theorem movStHighOff (rd rn : RegNum) (off : Word) : Statement (.movStHighOff rd rn off) := ⟨rfl, Nat.le_of_ble_eq_true rfl, Nat.le_of_ble_eq_true rfl, rfl⟩
theorem movStHalfOff (rd rn : RegNum) (off : Word) : Statement (.movStHalfOff rd rn off) := ⟨rfl, Nat.le_of_ble_eq_true rfl, Nat.le_of_ble_eq_true rfl, rfl⟩
theorem movStPairOff (rd rd1 rn : RegNum) (off : Word) : Statement (.movStPairOff rd rd1 rn off) := ⟨rfl, Nat.le_of_ble_eq_true rfl, Nat.le_of_ble_eq_true rfl, rfl⟩
theorem b (target : Addr) : Statement (.b target) := ⟨rfl, Nat.le_of_ble_eq_true rfl, Nat.le_of_ble_eq_true rfl, rfl⟩
theorem be (rd rn : RegNum) (target : Addr) : Statement (.be rd rn target) := ⟨rfl, Nat.le_of_ble_eq_true rfl, Nat.le_of_ble_eq_true rfl, rfl⟩
theorem bne (rd rn : RegNum) (target : Addr) : Statement (.bne rd rn target) := ⟨rfl, Nat.le_of_ble_eq_true rfl, Nat.le_of_ble_eq_true rfl, rfl⟩
theorem blt (rd rn : RegNum) (target : Addr) : Statement (.blt rd rn target) := ⟨rfl, Nat.le_of_ble_eq_true rfl, Nat.le_of_ble_eq_true rfl, rfl⟩
theorem bgt (rd rn : RegNum) (target : Addr) : Statement (.bgt rd rn target) := ⟨rfl, Nat.le_of_ble_eq_true rfl, Nat.le_of_ble_eq_true rfl, rfl⟩
theorem bro (target : Addr) : Statement (.bro target) := ⟨rfl, Nat.le_of_ble_eq_true rfl, Nat.le_of_ble_eq_true rfl, rfl⟩
theorem umull (rd rn rn1 : RegNum) : Statement (.umull rd rn rn1) := ⟨rfl, Nat.le_of_ble_eq_true rfl, Nat.le_of_ble_eq_true rfl, rfl⟩
theorem smull (rd rn rn1 : RegNum) : Statement (.smull rd rn rn1) := ⟨rfl, Nat.le_of_ble_eq_true rfl, Nat.le_of_ble_eq_true rfl, rfl⟩
theorem hlt : Statement (.hlt) := ⟨rfl, Nat.le_of_ble_eq_true rfl, Nat.le_of_ble_eq_true rfl, rfl⟩
theorem psh (rd : RegNum) : Statement (.psh rd) := ⟨rfl, Nat.le_of_ble_eq_true rfl, Nat.le_of_ble_eq_true rfl, rfl⟩
theorem pop (rd : RegNum) : Statement (.pop rd) := ⟨rfl, Nat.le_of_ble_eq_true rfl, Nat.le_of_ble_eq_true rfl, rfl⟩
theorem jsr (target : Addr) : Statement (.jsr target) := ⟨rfl, Nat.le_of_ble_eq_true rfl, Nat.le_of_ble_eq_true rfl, rfl⟩
theorem rts : Statement (.rts) := ⟨rfl, Nat.le_of_ble_eq_true rfl, Nat.le_of_ble_eq_true rfl, rfl⟩
theorem wfi : Statement (.wfi) := ⟨rfl, Nat.le_of_ble_eq_true rfl, Nat.le_of_ble_eq_true rfl, rfl⟩
theorem eni : Statement (.eni) := ⟨rfl, Nat.le_of_ble_eq_true rfl, Nat.le_of_ble_eq_true rfl, rfl⟩
theorem dsi : Statement (.dsi) := ⟨rfl, Nat.le_of_ble_eq_true rfl, Nat.le_of_ble_eq_true rfl, rfl⟩

end Sys2Proof.Laws.EncodedLength
end

