-- ==== Sys2Proof/Tests/Slice0.lean ====
section
/-! SUPPORT. Tests. Every expected result is the spec's: a worked example (S<n>) or a vector of spec/95_test_vectors.md, or
computed by hand from the rule named. The last part shows, for each statement with hypotheses, states and operands that
meet them. -/

namespace Sys2Proof.Tests

open Machine

/-! Helpers. -/

/-- The instruction that exactly these bytes decode to under the defaults of R7. -/
def dec (bs : List Byte) : Option Instr :=
  match decode Params.default bs with
  | .ok (i, []) => some i
  | _ => none

/-- The reset state at `pc` 0 with some registers set. -/
def regs (rs : List (RegNum × Half)) : State := rs.foldl (fun s r => s.setReg r.1 r.2) (State.reset.setPc 0)

/-- A state with bytes stored from an address on. -/
def poke (s : State) (a : Addr) (bs : List Byte) : State := { s with mem := Memory.writeBytes s.mem a bs }

/-- A state with other parameters. -/
def under (p : Params) (s : State) : State := { s with params := p }

/-- A state about to run the bytes, loaded at `pc`. -/
def prog (s : State) (bs : List Byte) : State := s.load s.pc bs

/-- The instruction at this program counter. -/
def atPc (a : Addr) (s : State) : State := s.setPc a

/-- What is read of the next state of one instruction. -/
def after {α : Type} (i : Instr) (s : State) (f : State → α) : Option α :=
  match exec i s with
  | .next t => some (f t)
  | _ => none

/-- What is read of the next state of one step. -/
def afterStep {α : Type} (s : State) (f : State → α) : Option α :=
  match step s with
  | .next t => some (f t)
  | _ => none

/-- The fault an outcome stops with. -/
def faultOf {α : Type} : Host.Outcome α Fault Refusal → Option Fault
  | .fault f => some f
  | _ => none

/-- The refusal an outcome stops with. -/
def refusalOf {α : Type} : Host.Outcome α Fault Refusal → Option Refusal
  | .refused r => some r
  | _ => none

/-- The state an outcome goes on with, or the reset state. -/
def nextOf : Host.Outcome State Fault Refusal → State
  | .next t => t
  | _ => State.reset

/-- `n` bytes from an address on. -/
def peek (s : State) (a : Addr) (n : Nat) : List Byte := (accessAddrs a n).map s.byteAt

/-- Memory at 0 to 0x1FFFF only, program text at 0x1000 to 0x10FF. -/
def small : Params := { Params.default with mapped := [⟨0, 0x20000⟩], text := [⟨0x1000, 0x100⟩] }

/-- `small` with aligned accesses asked for and the text not readable as data. -/
def strict : Params := { small with dataAlignFault := true, unifiedMemory := false }

/-- The start state of 95_test_vectors.md 2.3. -/
def movStart : State := poke (regs [(1, 0xA1B2), (2, 0xC3D4), (3, 0x2000)]) 0x2100 [0x11, 0x22, 0x33, 0x44]

/-! WellFormed: its one check, and that it refuses nothing else. -/

theorem test_wf_umull_refused : (Instr.umull 1 2 3).wellFormed { Params.default with mullLen := .four } = false := by
  decide
theorem test_wf_smull_refused : (Instr.smull 1 2 3).wellFormed { Params.default with mullLen := .four } = false := by
  decide
theorem test_wf_umull_admitted : (Instr.umull 1 2 3).wellFormed Params.default = true := by decide
theorem test_wf_pop_admitted : (Instr.pop 14).wellFormed { Params.default with mullLen := .four } = true := by decide

/-! Decode: one word for each constructor, written from its encoding (95_test_vectors.md 1.1, 1.2, 2.2 to 2.8). -/

theorem test_dec_add : dec [0x00, 0x01, 0x05, 0x12, 0x34] = some (.addImm 5 0x1234) ∧
    dec [0x01, 0x01, 0x01, 0x02] = some (.addReg 1 2) ∧
    dec [0x02, 0x01, 0x03, 0x12, 0x34, 0x56, 0x78] = some (.addMem 3 0x12345678) := by decide
theorem test_dec_sub : dec [0x00, 0x02, 0x02, 0x00, 0x01] = some (.subImm 2 1) ∧
    dec [0x01, 0x02, 0x03, 0x04] = some (.subReg 3 4) ∧
    dec [0x02, 0x02, 0x03, 0x00, 0x00, 0x20, 0x00] = some (.subMem 3 0x2000) := by decide
theorem test_dec_mul : dec [0x00, 0x03, 0x01, 0x00, 0x0A] = some (.mulImm 1 10) ∧
    dec [0x01, 0x03, 0x01, 0x02] = some (.mulReg 1 2) ∧
    dec [0x02, 0x03, 0x03, 0x00, 0x00, 0x20, 0x00] = some (.mulMem 3 0x2000) := by decide
theorem test_dec_and : dec [0x00, 0x04, 0x01, 0x00, 0xFF] = some (.andImm 1 0xFF) ∧
    dec [0x01, 0x04, 0x0A, 0x0B] = some (.andReg 10 11) ∧
    dec [0x02, 0x04, 0x03, 0x00, 0x00, 0x20, 0x00] = some (.andMem 3 0x2000) := by decide
theorem test_dec_or : dec [0x00, 0x05, 0x0F, 0x80, 0x00] = some (.orImm 15 0x8000) ∧
    dec [0x01, 0x05, 0x0C, 0x0D] = some (.orReg 12 13) ∧
    dec [0x02, 0x05, 0x03, 0x00, 0x00, 0x20, 0x00] = some (.orMem 3 0x2000) := by decide
theorem test_dec_xor : dec [0x00, 0x06, 0x00, 0xFF, 0xFF] = some (.xorImm 0 0xFFFF) ∧
    dec [0x01, 0x06, 0x01, 0x02] = some (.xorReg 1 2) ∧
    dec [0x02, 0x06, 0x03, 0x00, 0x00, 0x20, 0x00] = some (.xorMem 3 0x2000) := by decide
theorem test_dec_lsh : dec [0x00, 0x07, 0x01, 0x00, 0x04] = some (.lshImm 1 4) ∧
    dec [0x01, 0x07, 0x01, 0x02] = some (.lshReg 1 2) ∧
    dec [0x02, 0x07, 0x03, 0x00, 0x00, 0x20, 0x00] = some (.lshMem 3 0x2000) := by decide
theorem test_dec_rsh : dec [0x00, 0x08, 0x01, 0x00, 0x01] = some (.rshImm 1 1) ∧
    dec [0x01, 0x08, 0x0E, 0x0F] = some (.rshReg 14 15) ∧
    dec [0x02, 0x08, 0x03, 0x00, 0x00, 0x20, 0x00] = some (.rshMem 3 0x2000) := by decide
theorem test_dec_mov_move : dec [0x00, 0x09, 0x01, 0xFF, 0xFF] = some (.movImm 1 0xFFFF) ∧
    dec [0x01, 0x09, 0x04, 0x05, 0x00, 0x01, 0x23, 0x45] = some (.movImmPair 4 5 0x12345) ∧
    dec [0x02, 0x09, 0x01, 0x02] = some (.movReg 1 2) := by decide
theorem test_dec_mov_load : dec [0x03, 0x09, 0x01, 0x12, 0x34, 0x56, 0x78] = some (.movLdLow 1 0x12345678) ∧
    dec [0x04, 0x09, 0x01, 0x12, 0x34, 0x56, 0x78] = some (.movLdHigh 1 0x12345678) ∧
    dec [0x05, 0x09, 0x01, 0x12, 0x34, 0x56, 0x78] = some (.movLdHalf 1 0x12345678) ∧
    dec [0x06, 0x09, 0x01, 0x02, 0x12, 0x34, 0x56, 0x78] = some (.movLdPair 1 2 0x12345678) := by decide
theorem test_dec_mov_store : dec [0x07, 0x09, 0x01, 0x12, 0x34, 0x56, 0x78] = some (.movStLow 1 0x12345678) ∧
    dec [0x08, 0x09, 0x01, 0x12, 0x34, 0x56, 0x78] = some (.movStHigh 1 0x12345678) ∧
    dec [0x09, 0x09, 0x01, 0x12, 0x34, 0x56, 0x78] = some (.movStHalf 1 0x12345678) ∧
    dec [0x0A, 0x09, 0x01, 0x02, 0x12, 0x34, 0x56, 0x78] = some (.movStPair 1 2 0x12345678) := by decide
theorem test_dec_mov_load_off : dec [0x0B, 0x09, 0x01, 0x03, 0x00, 0x00, 0x01, 0x00] = some (.movLdLowOff 1 3 0x100) ∧
    dec [0x0C, 0x09, 0x01, 0x03, 0x00, 0x00, 0x01, 0x03] = some (.movLdHighOff 1 3 0x103) ∧
    dec [0x0D, 0x09, 0x01, 0x03, 0x00, 0x00, 0x00, 0x20] = some (.movLdHalfOff 1 3 0x20) ∧
    dec [0x0E, 0x09, 0x01, 0x02, 0x03, 0x00, 0x00, 0x00, 0x30] = some (.movLdPairOff 1 2 3 0x30) := by decide
theorem test_dec_mov_store_off : dec [0x0F, 0x09, 0x02, 0x03, 0x00, 0x00, 0x01, 0x00] = some (.movStLowOff 2 3 0x100) ∧
    dec [0x10, 0x09, 0x02, 0x03, 0x00, 0x00, 0x01, 0x01] = some (.movStHighOff 2 3 0x101) ∧
    dec [0x11, 0x09, 0x01, 0x03, 0x00, 0x00, 0x00, 0x50] = some (.movStHalfOff 1 3 0x50) ∧
    dec [0x12, 0x09, 0x01, 0x02, 0x03, 0x00, 0x00, 0x00, 0x60] = some (.movStPairOff 1 2 3 0x60) := by decide
theorem test_dec_branch : dec [0x00, 0x0A, 0x00, 0x00, 0x10, 0x00] = some (.b 0x1000) ∧
    dec [0x00, 0x0B, 0x01, 0x02, 0x00, 0x00, 0x20, 0x00] = some (.be 1 2 0x2000) ∧
    dec [0x00, 0x0C, 0x01, 0x02, 0xDE, 0xAD, 0xBE, 0xEF] = some (.bne 1 2 0xDEADBEEF) ∧
    dec [0x00, 0x0D, 0x01, 0x02, 0x00, 0x00, 0x30, 0x00] = some (.blt 1 2 0x3000) ∧
    dec [0x00, 0x0E, 0x01, 0x02, 0x00, 0x00, 0x30, 0x00] = some (.bgt 1 2 0x3000) ∧
    dec [0x00, 0x0F, 0x00, 0x00, 0x40, 0x00] = some (.bro 0x4000) := by decide
theorem test_dec_multiply : dec [0x00, 0x10, 0x04, 0x05, 0x06] = some (.umull 4 5 6) ∧
    dec [0x00, 0x11, 0x02, 0x03, 0x01] = some (.smull 2 3 1) := by decide
theorem test_dec_stack : dec [0x00, 0x13, 0x01] = some (.psh 1) ∧ dec [0x00, 0x14, 0x0E] = some (.pop 14) := by decide
theorem test_dec_subroutine : dec [0x00, 0x15, 0x00, 0x00, 0x50, 0x00] = some (.jsr 0x5000) ∧
    dec [0x00, 0x16] = some .rts := by decide
theorem test_dec_system : dec [0x00, 0x00] = some .nop ∧ dec [0x00, 0x12] = some .hlt ∧ dec [0x00, 0x17] = some .wfi ∧
    dec [0x00, 0x18] = some .eni ∧ dec [0x00, 0x19] = some .dsi := by decide

/-- The undefined encodings of 95_test_vectors.md 2.9. -/
theorem test_dec_undefined :
    decode Params.default [0x00, 0x1A] = .error (.undefined 0x00 0x1A) ∧
    decode Params.default [0x00, 0xFF] = .error (.undefined 0x00 0xFF) ∧
    decode Params.default [0x03, 0x01] = .error (.undefined 0x03 0x01) ∧
    decode Params.default [0x13, 0x09] = .error (.undefined 0x13 0x09) ∧
    decode Params.default [0x01, 0x0A] = .error (.undefined 0x01 0x0A) ∧
    decode Params.default [0x01, 0x00] = .error (.undefined 0x01 0x00) ∧
    decode Params.default [0x01, 0x12] = .error (.undefined 0x01 0x12) := by decide
/-- The register byte 0x15 of 95_test_vectors.md 2.9, under both values of `REG_HI_NIBBLE`. -/
theorem test_dec_nibble : dec [0x00, 0x01, 0x15, 0x12, 0x34] = none ∧
    decode { Params.default with regHiNibble := .ignore } [0x00, 0x01, 0x15, 0x12, 0x34] =
      .ok (.addImm 5 0x1234, []) := by decide
/-- One table word, with its operand bits 0: the specifier is the high byte of the word (R77). -/
theorem test_table_word : decodeTableWord 16 0x0F09 = some (.movStLowOff 0 0 0) ∧ decodeTableWord 16 0x001A = none := by
  decide
theorem test_fetch_word : afterStep (State.reset.withFetchWord 16 0x0013) (fun t => (t.reg 14, t.pc)) =
    some (0xFFFE, 0x1003) := by
  decide

/-- The program text after a load is what was placed (R7), and a store into it is refused by `CodeWrite` (R55). -/
theorem test_load_text : let s := State.reset.withFetchWord 16 0x0013
    s.inText 0xFFF = false ∧ s.inText 0x1000 = true ∧ s.inText 0x1008 = true ∧ s.inText 0x1009 = false ∧
    faultOf (s.storeHalf 0xFFF 0) = some (.codeWrite 0x1000) := by decide
/-- `MOV [0x00001004], R1, R2` stores into its own last bytes. -/
theorem test_load_self_store :
    faultOf (step (prog State.reset [0x0A, 0x09, 0x01, 0x02, 0x00, 0x00, 0x10, 0x04])) = some (.codeWrite 0x1004) := by
  decide

/-! Results, by family: the vectors of 95_test_vectors.md 2.1 to 2.8. V is left out where the spec leaves it open. -/

theorem test_add_carry : after (.addImm 1 1) (regs [(1, 0xFFFF)]) (fun t => (t.reg 1, t.z, t.v)) =
    some (0, true, true) := by
  decide
theorem test_add_signed : after (.addReg 1 2) (regs [(1, 0x7FFF), (2, 1)]) (fun t => (t.reg 1, t.z, t.v)) =
    some (0x8000, false, false) := by decide
theorem test_add_same : after (.addReg 1 1) (regs [(1, 0x1234)]) (fun t => (t.reg 1, t.pc)) = some (0x2468, 4) := by
  decide
theorem test_add_mem : after (.addMem 3 0x2000) (poke (regs [(3, 1)]) 0x2000 [0x12, 0x34]) (fun t => (t.reg 3, t.pc)) =
    some (0x1235, 7) := by decide
theorem test_add_mem_misaligned : faultOf (exec (.addMem 3 0x2001) (under strict (regs []))) =
    some (.misalignedAccess 0x2001) := by
  decide
theorem test_sub_clamps : after (.subReg 1 2) (regs [(1, 3), (2, 5)]) (fun t => (t.reg 1, t.z)) = some (0, true) := by
  decide
theorem test_sub_unsigned : after (.subImm 1 1) (regs [(1, 0x8000)]) (fun t => (t.reg 1, t.z)) =
    some (0x7FFF, false) := by
  decide
theorem test_sub_mem : after (.subMem 4 0x2000) (poke (regs [(4, 0x1000)]) 0x2000 [0x0F, 0xFF]) (fun t => t.reg 4) =
    some 1 := by decide
theorem test_mul_overflow : after (.mulReg 1 2) (regs [(1, 0x100), (2, 0x200)]) (fun t => (t.reg 1, t.z, t.v)) =
    some (0, true, true) := by decide
theorem test_mul_limit : after (.mulImm 1 0x101) (regs [(1, 0xFF)]) (fun t => (t.reg 1, t.z, t.v)) =
    some (0xFFFF, false, false) := by decide
theorem test_and_clears_v : after (.andImm 1 0xFF) ((regs [(1, 0xFF00)]).setFlags false true) (fun t => (t.reg 1, t.z, t.v)) =
    some (0, true, false) := by decide
theorem test_and_reg : after (.andReg 1 2) (regs [(1, 0xF0F0), (2, 0xFF00)]) (fun t => t.reg 1) = some 0xF000 := by
  decide
theorem test_or_reg : after (.orReg 1 2) (regs [(1, 0xF000), (2, 0x000F)]) (fun t => (t.reg 1, t.z, t.v)) =
    some (0xF00F, false, false) := by decide
theorem test_xor_reg : after (.xorReg 1 2) (regs [(1, 0xAAAA), (2, 0xAAAA)]) (fun t => (t.reg 1, t.z, t.v)) =
    some (0, true, false) := by decide
theorem test_xor_imm : after (.xorImm 1 0xFFFF) (regs [(1, 0x1234)]) (fun t => t.reg 1) = some 0xEDCB := by decide
theorem test_lsh_masked : after (.lshImm 1 0xFFE4) (regs [(1, 0x00FF)]) (fun t => (t.reg 1, t.z)) =
    some (0x0FF0, false) := by
  decide
theorem test_lsh_width : after (.lshReg 1 2) (regs [(1, 1), (2, 0x10)]) (fun t => (t.reg 1, t.z)) = some (0, true) := by
  decide
theorem test_rsh_logical : after (.rshImm 1 1) (regs [(1, 0x8000)]) (fun t => (t.reg 1, t.z)) =
    some (0x4000, false) := by
  decide
theorem test_rsh_masked : after (.rshReg 1 2) (regs [(1, 0xFFFF), (2, 0x21)]) (fun t => t.reg 1) = some 0x7FFF := by
  decide

theorem test_mov_pair : after (.movImmPair 4 5 0x12345) movStart (fun t => (t.reg 4, t.reg 5)) = some (1, 0x2345) := by
  decide
theorem test_mov_reg : after (.movReg 1 2) movStart (fun t => (t.reg 1, t.reg 2)) = some (0xC3D4, 0xC3D4) := by decide
theorem test_mov_ld_low : after (.movLdLow 1 0x2100) movStart (fun t => t.reg 1) = some 0xA111 := by decide
theorem test_mov_ld_high : after (.movLdHigh 1 0x2101) movStart (fun t => t.reg 1) = some 0x22B2 := by decide
theorem test_mov_ld_half_unaligned : after (.movLdHalf 1 0x2101) movStart (fun t => t.reg 1) = some 0x2233 := by
  decide
theorem test_mov_ld_pair : after (.movLdPair 1 2 0x2100) movStart (fun t => (t.reg 1, t.reg 2)) =
    some (0x1122, 0x3344) := by
  decide
theorem test_mov_st_low : after (.movStLow 1 0x2100) movStart (fun t => peek t 0x2100 2) = some [0xB2, 0x22] := by
  decide
theorem test_mov_st_high : after (.movStHigh 1 0x2100) movStart (fun t => peek t 0x2100 2) = some [0xA1, 0x22] := by
  decide
theorem test_mov_st_half : after (.movStHalf 1 0x2100) movStart (fun t => peek t 0x2100 3) =
    some [0xA1, 0xB2, 0x33] := by
  decide
theorem test_mov_st_pair : after (.movStPair 1 2 0x2100) movStart (fun t => peek t 0x2100 4) =
    some [0xA1, 0xB2, 0xC3, 0xD4] := by decide
theorem test_mov_ld_low_off : after (.movLdLowOff 1 3 0x100) movStart (fun t => t.reg 1) = some 0xA111 := by decide
theorem test_mov_ld_high_off : after (.movLdHighOff 1 3 0x103) movStart (fun t => t.reg 1) = some 0x44B2 := by decide
theorem test_mov_ld_half_off_base : after (.movLdHalfOff 3 3 0x100) movStart (fun t => t.reg 3) = some 0x1122 := by
  decide
theorem test_mov_ld_half_off_wrap : after (.movLdHalfOff 1 3 0xFFFFE100) (poke movStart 0x100 [0xAB, 0xCD])
    (fun t => t.reg 1) = some 0xABCD := by decide
theorem test_mov_ld_pair_off : after (.movLdPairOff 1 2 3 0x100) movStart (fun t => (t.reg 1, t.reg 2, t.pc)) =
    some (0x1122, 0x3344, 9) := by decide
theorem test_mov_st_low_off : after (.movStLowOff 2 3 0x100) movStart (fun t => peek t 0x2100 2) =
    some [0xD4, 0x22] := by
  decide
theorem test_mov_st_high_off : after (.movStHighOff 2 3 0x101) movStart (fun t => peek t 0x2100 2) =
    some [0x11, 0xC3] := by
  decide
theorem test_mov_st_half_off : after (.movStHalfOff 1 3 0x102) movStart (fun t => peek t 0x2101 3) =
    some [0x22, 0xA1, 0xB2] := by decide
theorem test_mov_st_pair_off : after (.movStPairOff 1 2 3 0x100) movStart (fun t => peek t 0x2100 4) =
    some [0xA1, 0xB2, 0xC3, 0xD4] := by decide
theorem test_mov_code_write : faultOf (exec (.movStHalf 1 0xFFF) (under small movStart)) =
    some (.codeWrite 0x1000) := by
  decide
theorem test_mov_unmapped : faultOf (exec (.movLdHalf 1 0x1FFFF) (under small movStart)) =
    some (.accessFault 0x20000) := by
  decide

/-- Both bytes of the halfword are unmapped; R43 and D16 name the lowest. -/
theorem test_mov_unmapped_wrap : faultOf (exec (.movLdHalf 1 0xFFFFFFFF)
    (under { Params.default with mapped := [⟨0x10, 0x10⟩] } movStart)) = some (.accessFault 0) := by
  decide

theorem test_be : after (.be 1 2 0x2000) (atPc 0x1000 (regs [(1, 0), (2, 1)])) State.pc = some 0x1008 := by decide
theorem test_bne : after (.bne 1 2 0x2000) (atPc 0x1000 (regs [(1, 1), (2, 2)])) State.pc = some 0x2000 := by decide
theorem test_blt_unsigned : after (.blt 1 2 0x3000) (atPc 0x1000 (regs [(1, 0xFFFF), (2, 1)])) State.pc =
    some 0x1008 := by
  decide
theorem test_bgt_unsigned : after (.bgt 1 2 0x3000) (regs [(1, 0x8000), (2, 0x7FFF)]) State.pc = some 0x3000 := by
  decide
theorem test_bro_keeps_v : after (.bro 0x2000) ((regs []).setFlags false true) (fun t => (t.pc, t.v)) =
    some (0x2000, true) := by
  decide
theorem test_bro_falls_through : after (.bro 0x2000) (atPc 0x1000 (regs [])) State.pc = some 0x1006 := by decide

theorem test_umull : after (.umull 4 5 6) (regs [(4, 0x1234), (5, 0x5678)]) (fun t => (t.reg 4, t.reg 5, t.reg 6, t.z)) =
    some (0x0626, 0x5678, 0x0060, false) := by decide
theorem test_umull_identity : after (.umull 4 5 6)
    (under { Params.default with mullRoles := .exampleIdentity } (regs [(5, 0xFFFF), (6, 0xFFFF)]))
    (fun t => (t.reg 4, t.reg 5)) = some (0x0001, 0xFFFE) := by decide
theorem test_smull : after (.smull 2 3 1) (regs [(2, 0xFFFF), (3, 2)]) (fun t => (t.reg 2, t.reg 1, t.z)) =
    some (0xFFFF, 0xFFFE, false) := by decide
theorem test_smull_square : after (.smull 4 4 6) (regs [(4, 0x8000)]) (fun t => (t.reg 4, t.reg 6)) =
    some (0x4000, 0) := by
  decide

theorem test_psh : after (.psh 1) (regs [(1, 0xABCD), (14, 0x8000)]) (fun t => (peek t 0x8000 2, t.reg 14)) =
    some ([0xAB, 0xCD], 0x7FFE) := by decide
theorem test_psh_r14 : after (.psh 14) (regs [(14, 0x8000)]) (fun t => (peek t 0x8000 2, t.reg 14)) =
    some ([0x80, 0x00], 0x7FFE) := by decide
theorem test_pop_wrap : after (.pop 1) (poke (regs [(14, 0xFFFE)]) 0 [0x12, 0x34]) (fun t => (t.reg 1, t.reg 14)) =
    some (0x1234, 0) := by decide
theorem test_jsr : after (.jsr 0x5000) (atPc 0x100A (regs [(14, 0x8000)])) (fun t => (peek t 0x8000 2, t.reg 14, t.pc)) =
    some ([0x10, 0x10], 0x7FFE, 0x5000) := by decide
theorem test_jsr_unpredictable : faultOf (exec (.jsr 0x5000) (atPc 0xFFFA (regs [(14, 0x8000)]))) =
    some (.unpredictable "JSR return address above 0xFFFF") := by
  decide
theorem test_rts : after .rts (poke (regs [(14, 0x7FFE)]) 0x8000 [0x10, 0x10]) (fun t => (t.reg 14, t.pc)) =
    some (0x8000, 0x1010) := by decide

theorem test_nop : after .nop (atPc 0x1000 (regs [])) State.pc = some 0x1002 := by decide
theorem test_wfi : after .wfi (atPc 0x1000 (regs [])) (fun t => (t.pc, t.halted)) = some (0x1002, false) := by decide
theorem test_hlt : after .hlt (regs [(1, 7)]) (fun t => (t.halted, t.reg 1)) = some (true, 7) := by decide
theorem test_halted : faultOf (step (regs []).halt) = some .halted := by decide
theorem test_step_undefined : faultOf (step (prog (atPc 0x1005 (regs [])) [0x00, 0x1A])) =
    some (.undefinedInstruction 0x1005 0 0x1A) := by
  decide
/-- `00 01 05 12` followed by an unmapped byte (95_test_vectors.md 2.9). -/
theorem test_step_fetch : faultOf (step (prog (atPc 0x1FFFC (under small (regs []))) [0x00, 0x01, 0x05, 0x12])) =
    some (.accessFault 0x20000) := by
  decide
/-- An instruction across the top of the address space (95_test_vectors.md 2.4, last row). -/
theorem test_step_wrap : afterStep (prog (atPc 0xFFFFFFFE (regs [])) [0x00, 0x0A, 0x00, 0x00, 0x10, 0x00]) State.pc =
    some 0x1000 := by decide

/-! Witnesses: states and operands that meet the hypotheses of the statements, clause by clause, at the ends of their
ranges. A name gives the statement. -/

/-- Small memory and text, halfwords at both ends of the data the witnesses read. -/
def tight : State := under small (regs [(1, 0xFFFF), (2, 1), (14, 0xFFFF)])

/-- `tight` with aligned accesses and no data reads of the text. -/
def harsh : State := under strict tight

/-- All of memory mapped, R3 at the top of its range. -/
def open16 : State := regs [(1, 1), (3, 0xFFFF), (14, 0xFFFF)]

theorem witness_DecodeOfEncode : (Instr.umull 15 0 15).wellFormed Params.default = true := by decide
theorem witness_DecodedBytesAreTheEncoding : Params.default.regHiNibble = .fault ∧
    decode Params.default [0x12, 0x09, 0x0F, 0x00, 0x0F, 0xFF, 0xFF, 0xFF, 0xFF, 0x00] =
      .ok (.movStPairOff 15 0 15 0xFFFFFFFF, [0x00]) := by decide
theorem witness_NibbleChoiceKeepsMeaning_fault :
    decode { Params.default with regHiNibble := .fault } [0x00, 0x13, 0x0F] = .ok (.psh 15, []) := by decide
theorem witness_NibbleChoiceKeepsMeaning_ignore : ∃ form, opcodeForm 0x10 0x00 = some form ∧
    layoutKnown { Params.default with regHiNibble := .ignore } form = true ∧
    form.length ≤ [0xFF, 0x10, 0x0F].length + 2 := ⟨_, rfl, by decide⟩
theorem witness_LengthFromFirstTwoBytes : decode Params.default [0x00, 0x00] = .ok (.nop, []) ∧
    decode Params.default [0x0E, 0x09, 1, 2, 3, 0, 0, 0, 0x30] = .ok (.movLdPairOff 1 2 3 0x30, []) := by decide
theorem witness_StepRunsTheDecodedInstruction :
    let s := prog (atPc 0x1FFF7 (under small (regs []))) [0x0E, 0x09, 1, 2, 3, 0, 0, 0, 0x30]
    s.halted = false ∧ decode s.params ((accessAddrs s.pc 9).map s.byteAt) = .ok (.movLdPairOff 1 2 3 0x30, []) ∧
      (∀ k, k < 9 → s.isMapped (s.pc + BitVec.ofNat 32 k) = true) := by decide

/-- The premises of UndefinedEncodingFaults but for its list of pairs. -/
def fetchable (s : State) : Bool := !s.halted && s.isMapped s.pc && s.isMapped (s.pc + 1)

theorem witness_UndefinedEncodingFaults :
    fetchable (prog State.reset [0x00, 0x1A]) = true ∧ 0x1A ≤ (0x1A : Byte).toNat ∧
    fetchable (prog State.reset [0x03, 0x08]) = true ∧ 3 ≤ (0x03 : Byte).toNat ∧ (0x08 : Byte).toNat ≤ 8 ∧
    fetchable (prog State.reset [0x13, 0x09]) = true ∧ 0x13 ≤ (0x13 : Byte).toNat ∧ (0x09 : Byte).toNat = 9 ∧
    fetchable (prog State.reset [0x01, 0x00]) = true ∧ (0x00 : Byte).toNat = 0 ∧ (0x01 : Byte).toNat ≠ 0 ∧
    fetchable (prog State.reset [0xFF, 0x0A]) = true ∧ 0x0A ≤ (0x0A : Byte).toNat ∧ (0xFF : Byte).toNat ≠ 0 := by
  decide

/-- The premises of RegisterNibbleFaults at a state, for the register byte `k` of a form. -/
def nibbleFaults (s : State) (form : Form) (k : Nat) : Bool :=
  !s.halted && s.params.regHiNibble == .fault && layoutKnown s.params form &&
    ((accessAddrs s.pc form.length).all fun a => s.isMapped a) && decide (k < form.regBytes) &&
    decide (16 ≤ (s.byteAt (s.pc + BitVec.ofNat 32 (2 + k))).toNat)

theorem witness_RegisterNibbleFaults : ∃ form, opcodeForm 0x13 0x00 = some form ∧
    nibbleFaults (prog (atPc 0x1FFFD tight) [0x00, 0x13, 0x10]) form 0 = true := ⟨_, rfl, by decide⟩
theorem witness_RegisterNibbleFaults_last : ∃ form, opcodeForm 0x10 0x00 = some form ∧
    nibbleFaults (prog (atPc 0x1FFFB tight) [0x00, 0x10, 0x01, 0x02, 0xF3]) form 2 = true := ⟨_, rfl, by decide⟩
theorem witness_FetchFaultsAtFirstUnmapped_first : (atPc 0x20000 tight).halted = false ∧
    (atPc 0x20000 tight).isMapped 0x20000 = false ∧ (atPc 0x1FFFF tight).isMapped 0x1FFFF = true ∧
    (atPc 0x1FFFF tight).isMapped (0x1FFFF + BitVec.ofNat 32 1) = false := by decide
/-- The premises that the two other clauses of FetchFaultsAtFirstUnmapped share, at a state, for a form. -/
def fetchesRest (s : State) (form : Form) : Bool :=
  !s.halted && layoutKnown s.params form && s.isMapped s.pc && s.isMapped (s.pc + 1)

theorem witness_FetchFaultsAtFirstUnmapped_rest : ∃ form, opcodeForm 0x01 0x00 = some form ∧ 4 < form.length ∧
    fetchesRest (prog (atPc 0x1FFFC tight) [0x00, 0x01, 5, 0x12]) form = true ∧
    (prog (atPc 0x1FFFC tight) [0x00, 0x01, 5, 0x12]).isMapped (0x1FFFC + BitVec.ofNat 32 4) = false ∧
    ∀ j, 2 ≤ j → j < 4 → tight.isMapped (0x1FFFC + BitVec.ofNat 32 j) = true := ⟨_, rfl, by decide⟩
/-- At the wrap: bytes 2 to 4 are unmapped, the lowest of them is byte 3, at address 0. -/
theorem witness_FetchFaultsAtFirstUnmapped_wrap : ∃ form, opcodeForm 0x01 0x00 = some form ∧
    (fetchesRest (prog (atPc 0xFFFFFFFD (under { small with mapped := [⟨0xFFFFFFFD, 2⟩] } tight)) [0x00, 0x01]) form &&
      decide (3 < form.length)) = true ∧
    faultOf (step (prog (atPc 0xFFFFFFFD (under { small with mapped := [⟨0xFFFFFFFD, 2⟩] } tight)) [0x00, 0x01])) =
      some (.accessFault 0) := ⟨_, rfl, by decide⟩
/-- The last mapped bytes hold an instruction; the unmapped byte behind it is not touched (R56). -/
theorem witness_FetchFaultsAtFirstUnmapped_whole : ∃ form, opcodeForm 0x13 0x00 = some form ∧
    (fetchesRest (prog (atPc 0x1FFFD tight) [0x00, 0x13, 0x02]) form &&
      (accessAddrs 0x1FFFD form.length).all fun a => tight.isMapped a) = true ∧
    tight.isMapped (0x1FFFD + BitVec.ofNat 32 3) = false ∧
    afterStep (prog (atPc 0x1FFFD (tight.setReg 14 0x8000)) [0x00, 0x13, 0x02]) State.pc = some 0x20000 :=
  ⟨_, rfl, by decide⟩
theorem witness_HaltedHasNoSuccessor : (nextOf (exec .hlt State.reset)).halted = true := by decide
theorem witness_LongMultiplyNeedsItsLayout :
    refusalOf (step (prog (under { Params.default with mullLen := .four } State.reset) [0x00, 0x10])) =
      some .longMultiplyLayout ∧
    refusalOf (step (prog (under { Params.default with mullLen := .four } State.reset) [0x00, 0x11])) =
      some .longMultiplyLayout := by decide

theorem witness_StepKeepsInv : State.reset.Inv ∧
    after (.psh 14) (regs [(14, 0xFFFF)]) (fun t => t.mem) = some [(0xFFFF, 0xFF), (0x10000, 0xFF)] := by
  unfold State.Inv; decide
theorem witness_StepKeepsInv_step : afterStep (prog open16 [0x00, 0x13, 0x01]) State.pc = some 3 := by decide
theorem witness_StepKeepsTextAndMap : afterStep (atPc 0x1000 tight) State.pc = some 0x1002 ∧ tight.inText 0x1000 = true ∧
    tight.inText 0x10FF = true ∧ tight.isMapped 0x20000 = false := by decide
theorem witness_HltAloneHalts : Instr.nop ≠ .hlt ∧ after .nop State.reset State.pc = some 0x1002 := by decide
theorem witness_FlagsWrittenByListedOnly : (Instr.pop 1).writesFlags = false ∧
    after (.pop 1) open16 State.pc = some 3 := by decide
theorem witness_OverflowFlagReadByBroOnly : (∀ target, Instr.rts ≠ .bro target) ∧
    after .rts State.reset State.halted = some false := ⟨nofun, by decide⟩
theorem witness_OnlyJsrSeesPc : (∀ target, Instr.rts ≠ .jsr target) ∧
    after .rts State.reset State.halted = some false := ⟨nofun, by decide⟩
theorem witness_SequentialAdvance : (Instr.movReg 1 2).transfersControl = false ∧ Instr.movReg 1 2 ≠ .hlt ∧
    after (.movReg 1 2) (atPc 0xFFFFFFFF open16) State.pc = some 3 := by decide
theorem witness_RegistersWrittenAreNamed : after (.umull 1 2 3) State.reset State.pc = some 0x1005 := by decide
theorem witness_MemoryWrittenAtTargetOnly : (Instr.movReg 1 2).storeTarget open16 = none ∧
    after (.movReg 1 2) open16 State.pc = some 4 ∧ (Instr.psh 1).storeTarget open16 = some (0xFFFF, 2) ∧
    after (.psh 1) open16 State.pc = some 3 := by decide

theorem witness_LoadsAreBigEndian : open16.Readable 0xFFFFFFFF 1 ∧ open16.Readable 0xFFFFFFFF 2 ∧
    open16.Readable 0xFFFFFFFD 4 ∧ harsh.Readable 0x1FFFC 4 := by unfold State.Readable; decide
theorem witness_LoadsAreBigEndian_fault : tight.loadFault 0x20000 1 = some (.accessFault 0x20000) ∧
    tight.loadFault 0x1FFFF 2 = some (.accessFault 0x20000) ∧ tight.loadFault 0xFFFFFFFF 4 = some (.accessFault 0xFFFFFFFF) ∧
    tight.params.dataAlignFault = false ∧ tight.isMapped (0x1FFFF + BitVec.ofNat 32 1) = false := by decide
theorem witness_StoresAreBigEndian : open16.Writable 0xFFFFFFFF 1 ∧ open16.Writable 0xFFFFFFFF 2 ∧
    open16.Writable 0xFFFFFFFE 4 ∧ harsh.Writable 0x1100 4 := by unfold State.Writable; decide
theorem witness_StoresAreBigEndian_stop : tight.isMapped (0x1FFFF + BitVec.ofNat 32 1) = false ∧
    tight.inText (0xFFF + BitVec.ofNat 32 1) = true := by decide
theorem witness_DataFaultOrder : harsh.params.dataAlignFault = true ∧ (0x0FFF : Addr).toNat % 2 ≠ 0 ∧
    (0x1FFFE : Addr).toNat % 4 ≠ 0 ∧ harsh.isMapped (0x20000 + BitVec.ofNat 32 0) = false ∧
    tight.isMapped (0x1FFFF + BitVec.ofNat 32 0) = true ∧ tight.isMapped (0x1FFFF + BitVec.ofNat 32 1) = false ∧
    tight.inText (0x0FFF + BitVec.ofNat 32 0) = false ∧ tight.inText (0x0FFF + BitVec.ofNat 32 1) = true := by decide
/-- Clauses 2 and 3 at the wrap: of an unmapped top byte and byte 0 the lowest is byte 0, and so for the text. -/
theorem witness_DataFaultOrder_wrap :
    let s := under { Params.default with mapped := [⟨1, 0x100⟩] } open16
    let t := under { Params.default with text := [⟨0xFFFFFFFF, 2⟩] } open16
    s.isMapped (0xFFFFFFFF + BitVec.ofNat 32 0) = false ∧ s.isMapped (0xFFFFFFFF + BitVec.ofNat 32 1) = false ∧
    s.loadFault 0xFFFFFFFF 4 = some (.accessFault 0) ∧ t.inText (0xFFFFFFFF + BitVec.ofNat 32 0) = true ∧
    t.inText (0xFFFFFFFF + BitVec.ofNat 32 1) = true ∧ t.storeFault 0xFFFFFFFF 2 = some (.codeWrite 0) := by decide
theorem witness_FaultingLoadStops : (Instr.movLdHalf 1 0x1FFFF).loadTarget tight = some (0x1FFFF, 2) ∧
    tight.loadFault 0x1FFFF 2 = some (.accessFault 0x20000) ∧
    (Instr.movLdHalf 1 0x10FE).loadTarget harsh = some (0x10FE, 2) ∧ harsh.loadFault 0x10FE 2 = none ∧
    harsh.loadRefusal 0x10FE 2 = some (.textRead 0x10FE) ∧ harsh.params.retaddrMode = .half16 ∧
    Instr.rts.loadTarget harsh = some (1, 2) ∧ harsh.loadFault 1 2 = some (.misalignedAccess 1) := by decide
theorem witness_FaultingStoreStops : (Instr.psh 1).storeTarget harsh = some (0xFFFF, 2) ∧
    harsh.storeFault 0xFFFF 2 = some (.misalignedAccess 0xFFFF) ∧
    (Instr.jsr 0).storeTarget (atPc 0xFFF9 harsh) = some (0xFFFF, 2) ∧ ((atPc 0xFFF9 harsh).pc + 6).toNat < 65536 := by
  decide

theorem witness_AluForms : open16.Readable 0xFFFFFFFF 2 := by unfold State.Readable; decide
theorem witness_AluForms_stop : tight.loadFault 0x1FFFF 2 = some (.accessFault 0x20000) := by decide
theorem witness_MovByteLoads : open16.Readable 0xFFFFFFFF 1 ∧ open16.Readable (open16.effAddr 3 0xFFFF0000) 1 := by
  unfold State.Readable; decide
theorem witness_MovByteLoads_stop : tight.loadFault 0x20000 1 = some (.accessFault 0x20000) ∧
    tight.loadFault (tight.effAddr 1 0x10001) 1 = some (.accessFault 0x20000) := by decide
theorem witness_MovHalfwordLoads : open16.Readable 0xFFFFFFFF 2 ∧ open16.Readable (open16.effAddr 3 0xFFFFFFFF) 2 := by
  unfold State.Readable; decide
theorem witness_MovPairLoads : open16.Readable 0xFFFFFFFD 4 ∧ open16.Readable (open16.effAddr 3 0xFFFF0000) 4 := by
  unfold State.Readable; decide
theorem witness_MovPairLoads_stop : tight.loadFault 0x1FFFD 4 = some (.accessFault 0x20000) ∧
    tight.loadFault (tight.effAddr 1 0xFFFE) 4 = some (.accessFault 0x20000) := by decide
theorem witness_MovByteStores : open16.Writable 0xFFFFFFFF 1 ∧ open16.Writable (open16.effAddr 3 0xFFFF0000) 1 := by
  unfold State.Writable; decide
theorem witness_MovByteStores_stop : tight.storeFault 0x10FF 1 = some (.codeWrite 0x10FF) ∧
    tight.storeFault (tight.effAddr 2 0xFFF) 1 = some (.codeWrite 0x1000) := by decide
theorem witness_MovHalfwordStores : open16.Writable 0xFFFFFFFF 2 ∧ open16.Writable (open16.effAddr 3 0xFFFF0000) 2 := by
  unfold State.Writable; decide
theorem witness_MovHalfwordStores_stop : tight.storeFault 0xFFF 2 = some (.codeWrite 0x1000) ∧
    tight.storeFault (tight.effAddr 2 0x1FFFE) 2 = some (.accessFault 0x20000) := by decide
theorem witness_MovPairStores : open16.Writable 0xFFFFFFFD 4 ∧ open16.Writable (open16.effAddr 3 0xFFFF0000) 4 := by
  unfold State.Writable; decide
theorem witness_MovPairStores_stop : tight.storeFault 0xFFD 4 = some (.codeWrite 0x1000) ∧
    tight.storeFault (tight.effAddr 2 0x1FFFC) 4 = some (.accessFault 0x20000) := by decide

theorem witness_CompareBranches : tight.reg 1 = tight.reg 1 ∧ tight.reg 1 ≠ tight.reg 2 ∧
    (tight.reg 2).toNat < (tight.reg 1).toNat ∧ (tight.reg 1).toNat ≤ (tight.reg 1).toNat := by decide
theorem witness_AlwaysAndOverflowBranches : (State.reset.setFlags false true).v = true ∧ State.reset.v = false := by
  decide
theorem witness_UmullResult_SmullResult : State.reset.params.mullRoles = .operationLine ∧
    (under { Params.default with mullRoles := .exampleIdentity } State.reset).params.mullRoles = .exampleIdentity ∧
    (under { Params.default with mullRoles := .exampleRdRn1 } State.reset).params.mullRoles = .exampleRdRn1 := by
  decide

theorem witness_PushResult : open16.Writable (stackAddr (open16.reg 14)) 2 := by unfold State.Writable; decide
theorem witness_PushResult_stop : harsh.storeFault (stackAddr (harsh.reg 14)) 2 = some (.misalignedAccess 0xFFFF) := by
  decide
theorem witness_PopResult : open16.Readable (stackAddr (open16.reg 14 + 2)) 2 := by unfold State.Readable; decide
theorem witness_PopResult_stop : harsh.loadFault (stackAddr (harsh.reg 14 + 2)) 2 = some (.misalignedAccess 1) := by
  decide
theorem witness_PushThenPopCopies : (15 : RegNum) ≠ 14 ∧ open16.Writable (stackAddr (open16.reg 14)) 2 ∧
    open16.Readable (stackAddr (open16.reg 14)) 2 := by unfold State.Writable State.Readable; decide
theorem witness_JsrResult : open16.params.retaddrMode = .half16 ∧ ((atPc 0xFFF9 open16).pc + 6).toNat = 65535 ∧
    65536 = ((atPc 0xFFFA open16).pc + 6).toNat ∧ ((atPc 0xFFFFFFFA open16).pc + 6).toNat = 0 := by decide
theorem witness_WordReturnAddressRefused :
    (under { Params.default with retaddrMode := .word32 } open16).params.retaddrMode = .word32 := by decide
theorem witness_JsrResult_store : (atPc 0xFFF9 open16).Writable (stackAddr ((atPc 0xFFF9 open16).reg 14)) 2 ∧
    harsh.storeFault (stackAddr (harsh.reg 14)) 2 = some (.misalignedAccess 0xFFFF) := by unfold State.Writable; decide
theorem witness_RtsResult : open16.Readable (stackAddr (open16.reg 14 + 2)) 2 ∧
    harsh.loadFault (stackAddr (harsh.reg 14 + 2)) 2 = some (.misalignedAccess 1) := by unfold State.Readable; decide
theorem witness_ReturnGoesBehindTheCall : ((atPc 0xFFF9 open16).pc + 6).toNat < 65536 ∧
    (atPc 0xFFF9 open16).Writable (stackAddr (open16.reg 14)) 2 ∧
    (atPc 0xFFF9 open16).Readable (stackAddr (open16.reg 14)) 2 := by unfold State.Writable State.Readable; decide

/-- Two disjoint runs of bytes, one of them across the top of the address space. -/
theorem witness_LoadedProgramIsText :
    let program : List (Addr × List Byte) := [(0x1000, [0x00, 0x0A, 0xFF, 0xFF, 0xFF, 0xFF]), (0xFFFFFFFF, [0x00, 0x12])]
    let s := State.startOfRun small 0x1000 (Vector.replicate 16 0) false false [(5, 9)] program
    (∀ e ∈ program, e.2.length ≤ 2 ^ 32) ∧
    program.Pairwise (fun e f => ∀ j, j < e.2.length → ∀ k, k < f.2.length →
      e.1 + BitVec.ofNat 32 j ≠ f.1 + BitVec.ofNat 32 k) ∧
    s.inText 0x1005 = true ∧ s.inText 0x1006 = false ∧ s.inText 0xFFFFFFFF = true ∧ s.inText 0 = true ∧
    s.inText 1 = false ∧ peek s 0xFFFFFFFF 2 = [0x00, 0x12] ∧ s.byteAt 5 = 9 ∧
    afterStep s State.pc = some 0xFFFFFFFF := by
  decide

end Sys2Proof.Tests
end

section
/-! PROOFS. The family 00_scope: a step is the decoded instruction's meaning, a load marks what it places as program
text, and no step changes program text, unmapped bytes or parameters. -/

namespace Sys2Proof.Proofs

open Sys2Proof.Machine Sys2Proof.Machine.Laws Sys2Proof.Laws

/-! What each instruction does to memory and to the parameters. -/

/-- The parameters are kept, and memory too where there is no target; with a target, `n` bytes of it that a store may
write are written from `a` on. -/
def WritesAt (s t : State) : Option (Addr × Nat) → Prop
  | none => t.mem = s.mem ∧ t.params = s.params
  | some (a, n) => s.Writable a n ∧ t.params = s.params ∧
      ∃ bs : List Byte, bs.length = n ∧ t.mem = Memory.writeBytes s.mem a bs

section
variable {s t u : State}

/-- An update of registers, flags and `pc` alone. -/
theorem writesAt_none_of_next (h : Host.Outcome.next (φ := Fault) (ρ := Refusal) u = .next t)
    (hu : u.mem = s.mem ∧ u.params = s.params) : WritesAt s t none := by
  cases h
  exact hu

/-- A load followed by such an update. -/
theorem writesAt_none_of_load {α : Type} {o : Host.Outcome α Fault Refusal} {f : α → State}
    (h : andThen o (fun x => .next (f x)) = .next t)
    (hf : ∀ x, (f x).mem = s.mem ∧ (f x).params = s.params) : WritesAt s t none := by
  obtain ⟨x, -, hx⟩ := andThen_eq_next.mp h
  exact writesAt_none_of_next hx (hf x)

/-- A store followed by an update of registers and `pc`. -/
theorem writesAt_some_of_store {a : Addr} {bs : List Byte} {n : Nat} {f : State → State}
    (h : andThen (s.storeBytes a bs) (fun u => .next (f u)) = .next t)
    (hf : ∀ u, (f u).mem = u.mem ∧ (f u).params = u.params) (hn : bs.length = n) : WritesAt s t (some (a, n)) := by
  obtain ⟨u, hu, hx⟩ := andThen_eq_next.mp h
  obtain ⟨hw, rfl⟩ := storeBytes_eq_next.mp hu
  obtain ⟨hm, hp⟩ := hf { s with mem := Memory.writeBytes s.mem a bs }
  cases hx
  exact ⟨hn ▸ hw, hp, bs, hn, hm⟩

/-- A push followed by an update of `pc`. -/
theorem writesAt_some_of_push {v : Half} {f : State → State}
    (h : andThen (s.pushHalf v) (fun u => .next (f u)) = .next t)
    (hf : ∀ u, (f u).mem = u.mem ∧ (f u).params = u.params) :
    WritesAt s t (some (stackAddr (s.reg spReg), 2)) := by
  obtain ⟨u, hu, hx⟩ := andThen_eq_next.mp h
  obtain ⟨hw, rfl⟩ := pushHalf_eq_next.mp hu
  obtain ⟨hm, hp⟩ := hf (({ s with
    mem := Memory.writeBytes s.mem (stackAddr (s.reg spReg)) (halfBytes v) } : State).setReg spReg (s.reg spReg - 2))
  cases hx
  exact ⟨hw, hp, halfBytes v, rfl, hm⟩

theorem writesAt_movLoadPair {site : AnyofSite} {d e : RegNum} {a : Addr} {len : Nat}
    (h : movLoadPair site d e a len s = .next t) : WritesAt s t none :=
  writesAt_none_of_load h fun _ => by simp

theorem writesAt_mulApply {site : AnyofSite} {r : MulRegs} {p : Word} {v : Bool}
    (h : Host.Outcome.next (φ := Fault) (ρ := Refusal) (mulApply site r p v s) = .next t) : WritesAt s t none :=
  writesAt_none_of_next h (by simp [mulApply])

theorem writesAt_branchIf {cond : Bool} {target : Addr} {len : Nat} (h : branchIf cond target len s = .next t) :
    WritesAt s t none :=
  writesAt_none_of_next h (by cases cond <;> exact ⟨rfl, rfl⟩)

/-- JSR goes on only under `half16` and with a return address that fits, and then its push is its store (R191). -/
theorem writesAt_execJsr {target : Addr} (h : execJsr target s = .next t) :
    WritesAt s t (some (stackAddr (s.reg spReg), 2)) := by
  unfold execJsr at h
  split at h
  · cases h
  · split at h
    · exact writesAt_some_of_push h fun _ => ⟨rfl, rfl⟩
    · cases h

/-- RTS goes on only under `half16`, and stores nothing (R192). -/
theorem writesAt_execRts (h : execRts s = .next t) : WritesAt s t none := by
  unfold execRts at h
  split at h
  · cases h
  · exact writesAt_none_of_load h fun _ => ⟨rfl, rfl⟩

/-- An instruction that goes on keeps the parameters, and writes memory at its store's target only, where the store is
admitted (R44, R55). -/
theorem exec_writesAt {i : Instr} (h : exec i s = .next t) : WritesAt s t (i.storeTarget s) := by
  cases i with
  | nop | wfi | eni | dsi | hlt | b | movImm | movReg
  | addImm | subImm | mulImm | andImm | orImm | xorImm | lshImm | rshImm
  | addReg | subReg | mulReg | andReg | orReg | xorReg | lshReg | rshReg =>
    exact writesAt_none_of_next h ⟨rfl, rfl⟩
  | addMem | subMem | mulMem | andMem | orMem | xorMem | lshMem | rshMem
  | movLdLow | movLdHigh | movLdHalf | movLdLowOff | movLdHighOff | movLdHalfOff =>
    exact writesAt_none_of_load h fun _ => ⟨rfl, rfl⟩
  | movImmPair => exact writesAt_none_of_next h (by simp)
  | movLdPair | movLdPairOff => exact writesAt_movLoadPair h
  | movStLow | movStHigh | movStHalf | movStPair | movStLowOff | movStHighOff | movStHalfOff | movStPairOff =>
    exact writesAt_some_of_store h (fun _ => ⟨rfl, rfl⟩) rfl
  | be | bne | blt | bgt | bro => exact writesAt_branchIf h
  | umull | smull => exact writesAt_mulApply h
  | psh => exact writesAt_some_of_push h fun _ => ⟨rfl, rfl⟩
  | pop => exact writesAt_none_of_load h fun _ => by simp
  | jsr => exact writesAt_execJsr h
  | rts => exact writesAt_execRts h

/-- A step that goes on is the meaning of some instruction, in a machine that is not halted (R11, R222). -/
theorem step_eq_next : step s = .next t ↔
    s.halted = false ∧ ∃ i, s.fetchInstr = .next i ∧ exec i s = .next t := by
  unfold step
  cases s.halted <;> simp [andThen_eq_next]

theorem WritesAt.params_eq {target : Option (Addr × Nat)} (h : WritesAt s t target) : t.params = s.params := by
  match target, h with
  | none, ⟨_, hp⟩ => exact hp
  | some _, ⟨_, hp, _⟩ => exact hp

/-- A byte that no store may write keeps its value: it is in the program text or unmapped (R44, R55). -/
theorem WritesAt.byteAt_eq {target : Option (Addr × Nat)} (h : WritesAt s t target) {c : Addr}
    (hc : s.inText c = true ∨ s.isMapped c = false) : t.byteAt c = s.byteAt c := by
  match target, h with
  | none, ⟨hm, _⟩ => exact congrArg (Memory.read · c.toNat) hm
  | some (a, n), h =>
    obtain ⟨⟨_, hmap, htext⟩, _, bs, rfl, hm⟩ := h
    have hout : ∀ k, k < bs.length → c ≠ a + BitVec.ofNat 32 k := by
      rintro k hk rfl
      simp [hmap k hk, htext k hk] at hc
    exact (congrArg (Memory.read · c.toNat) hm).trans (read_writeBytes_of_ne bs s.mem a c hout)
end

/-- Settles O15: a step is some instruction's meaning, and that writes only where a store is admitted. -/
theorem stepKeepsTextAndMap : Obligations.StepKeepsTextAndMap := by
  intro s t h
  obtain ⟨_, i, _, hexec⟩ := step_eq_next.mp h
  have hw := exec_writesAt hexec
  exact ⟨fun _ hc => hw.byteAt_eq (.inl hc), fun _ hc => hw.byteAt_eq (.inr hc), hw.params_eq⟩

/-! Loading a listing. -/

/-- The text after a listing is what it was, and the bytes of the listing's runs (R7, R231). -/
theorem loadProgram_inText (s : State) (program : List (Addr × List Byte)) (c : Addr) :
    (s.loadProgram program).inText c = true ↔
      (∃ e ∈ program, ∃ k, k < e.2.length ∧ c = e.1 + BitVec.ofNat 32 k) ∨ s.inText c = true := by
  induction program generalizing s with
  | nil => simp [State.loadProgram]
  | cons e es ih =>
    rw [State.loadProgram, ih, load_inText, List.exists_mem_cons_iff, ← or_assoc, or_comm (b := ∃ k, _)]

/-- A listing leaves every byte alone that none of its runs places. -/
theorem loadProgram_byteAt_of_ne (s : State) (program : List (Addr × List Byte)) (c : Addr)
    (h : ∀ e ∈ program, ∀ k, k < e.2.length → c ≠ e.1 + BitVec.ofNat 32 k) :
    (s.loadProgram program).byteAt c = s.byteAt c := by
  induction program generalizing s with
  | nil => rfl
  | cons e es ih =>
    obtain ⟨he, hes⟩ := List.forall_mem_cons.mp h
    exact (ih (s.load e.1 e.2) hes).trans (load_memSameOutside s e.1 e.2 c he)

/-- Where no two of its runs overlap, a listing's bytes are all at their addresses: the runs placed after one leave it
alone. -/
theorem loadProgram_byteAt (s : State) (program : List (Addr × List Byte))
    (hlen : ∀ e ∈ program, e.2.length ≤ 2 ^ 32)
    (hdis : program.Pairwise fun e f => ∀ j, j < e.2.length → ∀ k, k < f.2.length →
      e.1 + BitVec.ofNat 32 j ≠ f.1 + BitVec.ofNat 32 k) :
    ∀ e ∈ program, ∀ k (h : k < e.2.length),
      (s.loadProgram program).byteAt (e.1 + BitVec.ofNat 32 k) = e.2[k] := by
  induction program generalizing s with
  | nil => exact fun _ he => absurd he List.not_mem_nil
  | cons e es ih =>
    obtain ⟨hle, hles⟩ := List.forall_mem_cons.mp hlen
    obtain ⟨hde, hdes⟩ := List.pairwise_cons.mp hdis
    refine List.forall_mem_cons.mpr ⟨fun k hk => ?_, ih (s.load e.1 e.2) hles hdes⟩
    calc (s.loadProgram (e :: es)).byteAt (e.1 + BitVec.ofNat 32 k)
        = (s.load e.1 e.2).byteAt (e.1 + BitVec.ofNat 32 k) :=
          loadProgram_byteAt_of_ne _ es _ fun f hf => hde f hf k hk
      _ = e.2[k] := load_byteAt s e.1 e.2 hle k hk

/-- At the start of a run `TEXT` is exactly what the listing places (R231). -/
theorem startOfRun_inText (p : Params) (entry : Addr) (rs : Vector Half 16) (z v : Bool) (data : Memory)
    (program : List (Addr × List Byte)) (c : Addr) :
    (State.startOfRun p entry rs z v data program).inText c = true ↔
      ∃ e ∈ program, ∃ k, k < e.2.length ∧ c = e.1 + BitVec.ofNat 32 k := by
  have hnone : (State.boot { p with text := [] } entry rs z v data).inText c = false := rfl
  rw [State.startOfRun, loadProgram_inText, hnone, or_iff_left Bool.false_ne_true]

/-- Settles O60, from the rules for one load and, by induction on the listing, for a whole program. -/
theorem loadedProgramIsText : Obligations.LoadedProgramIsText := by
  constructor
  · intro s a bs hl
    exact ⟨load_byteAt s a bs hl, fun _ => load_inText s a bs, load_memSameOutside s a bs, fun _ _ => rfl,
      ⟨rfl, rfl⟩, rfl, rfl, rfl⟩
  · rintro p entry rs z v data program _ rfl hlen
    obtain ⟨mem, text, heq⟩ := loadProgram_eq (State.boot { p with text := [] } entry rs z v data) program
    rw [← State.startOfRun] at heq
    have htext := startOfRun_inText p entry rs z v data program
    refine ⟨congrArg State.halted heq, congrArg State.pc heq, congrArg State.regs heq, congrArg State.z heq,
      congrArg State.v heq, by rw [heq]; rfl, htext, fun c hc => ?_,
      loadProgram_byteAt _ program hlen⟩
    refine loadProgram_byteAt_of_ne _ program c fun e he k hk hce => ?_
    exact Bool.false_ne_true (hc.symm.trans ((htext c).mpr ⟨e, he, k, hk, hce⟩))

/-! The instruction that is fetched. -/

/-- Every instruction a format holds, whatever its operands, has the property. -/
def FormAll (P : Instr → Prop) : Form → Prop
  | .n i => P i
  | .r f => ∀ d, P (f d)
  | .rr f => ∀ d n, P (f d n)
  | .ri f => ∀ d i, P (f d i)
  | .rrr f => ∀ d n m, P (f d n m)
  | .a f => ∀ w, P (f w)
  | .ra f => ∀ d w, P (f d w)
  | .rra f => ∀ d n w, P (f d n w)
  | .rrra f => ∀ d m n w, P (f d m n w)

/-- What `readOperands` gives is an instruction of its format. -/
theorem readOperands_of_formAll {P : Instr → Prop} {p : Params} {form : Form} {ops rest : List Byte} {i : Instr}
    (hP : FormAll P form) (h : readOperands p form ops = some (i, rest)) : P i := by
  cases form with
  | n => cases readOperands_n.mp h; exact hP
  | r => obtain ⟨_, _, _, _, _, h⟩ := readOperands_r.mp h; cases h; exact hP _
  | rr => obtain ⟨_, _, _, _, _, _, _, _, h⟩ := readOperands_rr.mp h; cases h; exact hP _ _
  | ri => obtain ⟨_, _, _, _, _, _, _, h⟩ := readOperands_ri.mp h; cases h; exact hP _ _
  | rrr => obtain ⟨_, _, _, _, _, _, _, _, _, _, _, h⟩ := readOperands_rrr.mp h; cases h; exact hP _ _ _
  | a => obtain ⟨_, _, _, _, _, _, h⟩ := readOperands_a.mp h; cases h; exact hP _
  | ra => obtain ⟨_, _, _, _, _, _, _, _, _, h⟩ := readOperands_ra.mp h; cases h; exact hP _ _
  | rra => obtain ⟨_, _, _, _, _, _, _, _, _, _, _, _, h⟩ := readOperands_rra.mp h; cases h; exact hP _ _ _
  | rrra =>
    obtain ⟨_, _, _, _, _, _, _, _, _, _, _, _, _, _, _, h⟩ := readOperands_rrra.mp h
    cases h; exact hP _ _ _ _

/-- Each row of the opcode map stands under a format of its instruction's length (R64, R68): the table, row by row. -/
theorem opcodeForm_length {op spec : Nat} {form : Form} (h : opcodeForm op spec = some form) :
    FormAll (fun i => i.length = form.length) form := by
  unfold opcodeForm at h
  split at h <;> cases h <;> simp [FormAll, Form.length, Instr.length]

/-- A decoded instruction is as long as the form that its first two bytes select (R64). -/
theorem length_of_readOperands {p : Params} {op spec : Nat} {form : Form} {ops rest : List Byte} {i : Instr}
    (hform : opcodeForm op spec = some form) (h : readOperands p form ops = some (i, rest)) :
    i.length = form.length :=
  readOperands_of_formAll (opcodeForm_length hform) h

theorem two_le_formLength (form : Form) : 2 ≤ form.length := by cases form <;> simp [Form.length]

theorem formLength_le_nine (form : Form) : form.length ≤ 9 := by cases form <;> simp [Form.length]

theorem accessAddrs_succ (a : Addr) (n : Nat) : accessAddrs a (n + 1) = a :: accessAddrs (a + 1) n := by
  have hnext : (fun k => a + BitVec.ofNat 32 k) ∘ Nat.succ = fun k => a + 1 + BitVec.ofNat 32 k :=
    funext (add_ofNat_succ a)
  rw [accessAddrs, List.range_succ_eq_map, List.map_cons, List.map_map, hnext, accessAddrs]
  simp

theorem addr_add_one_add_one (a : Addr) : a + 1 + 1 = a + 2 := BitVec.add_assoc a 1 1

theorem take_accessAddrs {m n : Nat} (h : m ≤ n) (a : Addr) : (accessAddrs a n).take m = accessAddrs a m := by
  rw [accessAddrs, ← List.map_take, List.take_range, min_eq_left h, accessAddrs]

/-- A fetch goes on exactly where the instruction's bytes are mapped and name a form and operands of it (R72, R213). -/
theorem fetchInstr_eq_next {s : State} {i : Instr} : s.fetchInstr = .next i ↔
    s.isMapped s.pc = true ∧ s.isMapped (s.pc + 1) = true ∧
    ∃ form rest, opcodeForm (s.byteAt (s.pc + 1)).toNat (s.byteAt s.pc).toNat = some form ∧
      layoutKnown s.params form = true ∧
      (∀ k, k < form.length - 2 → s.isMapped (s.pc + 2 + BitVec.ofNat 32 k) = true) ∧
      readOperands s.params form ((accessAddrs (s.pc + 2) (form.length - 2)).map s.byteAt) = some (i, rest) := by
  unfold State.fetchInstr
  simp only [andThen_eq_next, fetchByte_eq_next]
  constructor
  · rintro ⟨_, ⟨h0, rfl⟩, _, ⟨h1, rfl⟩, h⟩
    split at h
    · cases h
    · next form hform =>
      split at h
      · next hl =>
        obtain ⟨ops, hops, h⟩ := andThen_eq_next.mp h
        obtain ⟨hm, rfl⟩ := fetchBytes_eq_next.mp hops
        split at h
        · next hread => cases h; exact ⟨h0, h1, form, _, hform, hl, hm, hread⟩
        · cases h
      · cases h
  · rintro ⟨h0, h1, form, rest, hform, hl, hm, hread⟩
    refine ⟨_, ⟨h0, rfl⟩, _, ⟨h1, rfl⟩, ?_⟩
    simp only [hform, hl, if_true, fetchBytes_of_mapped hm, andThen_next, hread]

/-- Settles O7: the nine bytes at `pc` and the fetch select the same form, whose length is the instruction's, and the
operands are read from the instruction's own bytes alone. -/
theorem stepRunsTheDecodedInstruction : Obligations.StepRunsTheDecodedInstruction := by
  intro s i rest hrun hdec hmap
  rw [accessAddrs_succ, accessAddrs_succ, List.map_cons, List.map_cons, decode_eq_ok] at hdec
  obtain ⟨form, hform, hlayout, -, hread⟩ := hdec
  have h2 := two_le_formLength form
  have h9 := formLength_le_nine form
  rw [length_of_readOperands hform hread] at hmap
  have hown := readOperands_take hread
  rw [← List.map_take, take_accessAddrs (by omega), addr_add_one_add_one] at hown
  have hrest : ∀ k, k < form.length - 2 → s.isMapped (s.pc + 2 + BitVec.ofNat 32 k) = true := fun k hk => by
    have := hmap (k + 1 + 1) (by omega)
    rwa [add_ofNat_succ, add_ofNat_succ, addr_add_one_add_one] at this
  have hfetch : s.fetchInstr = .next i := fetchInstr_eq_next.mpr
    ⟨by simpa using hmap 0 (by omega), hmap 1 (by omega), form, [], hform, hlayout, hrest, hown⟩
  simp [step, hrun, hfetch]

end Sys2Proof.Proofs
end

section
/-! PROOFS. The family 10_state: what an instruction reads of the flags and `pc`, what it leaves unchanged of the state,
the results of SUB, the shifts and the long multiplies, and the reset states. -/

namespace Sys2Proof.Proofs

open Sys2Proof.Machine Sys2Proof.Machine.Laws Sys2Proof.Laws

/-! Two states that agree but for one part, and the operations that keep them so. -/

/-- The part in which two states may differ. -/
inductive StatePart where
  | z
  | v
  | pc

/-- The states agree but for one part, field by field. -/
structure AgreeBut (p : StatePart) (s t : State) : Prop where
  regs : t.regs = s.regs
  pc : p ≠ .pc → t.pc = s.pc
  z : p ≠ .z → t.z = s.z
  v : p ≠ .v → t.v = s.v
  halted : t.halted = s.halted
  mem : t.mem = s.mem
  params : t.params = s.params
  draws : t.draws = s.draws

section
variable {p : StatePart} {s t : State}

theorem agreeBut_z_iff : AgreeBut .z s t ↔ SameButZ s t := by
  constructor
  · intro h
    cases s; cases t
    simpa [SameButZ] using ⟨h.regs, h.pc nofun, h.v nofun, h.halted, h.mem, h.params, h.draws⟩
  · intro h
    rw [SameButZ] at h
    rw [h]
    exact ⟨rfl, fun _ => rfl, fun hp => absurd rfl hp, fun _ => rfl, rfl, rfl, rfl, rfl⟩

theorem agreeBut_v_iff : AgreeBut .v s t ↔ SameButV s t := by
  constructor
  · intro h
    cases s; cases t
    simpa [SameButV] using ⟨h.regs, h.pc nofun, h.z nofun, h.halted, h.mem, h.params, h.draws⟩
  · intro h
    rw [SameButV] at h
    rw [h]
    exact ⟨rfl, fun _ => rfl, fun _ => rfl, fun hp => absurd rfl hp, rfl, rfl, rfl, rfl⟩

theorem agreeBut_pc_iff : AgreeBut .pc s t ↔ SameButPc s t := by
  constructor
  · intro h
    cases s; cases t
    simpa [SameButPc] using ⟨h.regs, h.z nofun, h.v nofun, h.halted, h.mem, h.params, h.draws⟩
  · intro h
    rw [SameButPc] at h
    rw [h]
    exact ⟨rfl, fun hp => absurd rfl hp, fun _ => rfl, fun _ => rfl, rfl, rfl, rfl, rfl⟩

namespace AgreeBut

/-! Reads of registers and memory give the same. -/

theorem reg (h : AgreeBut p s t) (r : RegNum) : t.reg r = s.reg r := congrArg (·.get r) h.regs

theorem effAddr (h : AgreeBut p s t) (rn : RegNum) (off : Word) : t.effAddr rn off = s.effAddr rn off := by
  simp only [State.effAddr, h.reg]

theorem popPointer (h : AgreeBut p s t) : t.popPointer = s.popPointer := by
  simp only [State.popPointer, h.reg]

theorem byteAt (h : AgreeBut p s t) (a : Addr) : t.byteAt a = s.byteAt a := congrArg (Memory.read · a.toNat) h.mem

theorem halfAt (h : AgreeBut p s t) (a : Addr) : t.halfAt a = s.halfAt a := by simp only [State.halfAt, h.byteAt]

theorem wordAt (h : AgreeBut p s t) (a : Addr) : t.wordAt a = s.wordAt a := by simp only [State.wordAt, h.halfAt]

theorem lowestInText (h : AgreeBut p s t) (a : Addr) (n : Nat) : t.lowestInText a n = s.lowestInText a n := by
  have hin : t.inText = s.inText := funext fun c => by simp only [State.inText, h.params]
  simp only [State.lowestInText, hin]

theorem loadFault (h : AgreeBut p s t) (a : Addr) (n : Nat) : t.loadFault a n = s.loadFault a n := by
  simp only [State.loadFault, State.lowestUnmapped, State.isMapped, h.params]

theorem storeFault (h : AgreeBut p s t) (a : Addr) (n : Nat) : t.storeFault a n = s.storeFault a n := by
  simp only [State.storeFault, h.loadFault, h.lowestInText]

theorem checkedLoad {α : Type} (h : AgreeBut p s t) (a : Addr) (n : Nat) (x : α) :
    t.checkedLoad a n x = s.checkedLoad a n x := by
  simp only [State.checkedLoad, h.loadFault, State.loadRefusal, h.params, h.lowestInText]

theorem loadByte (h : AgreeBut p s t) (a : Addr) : t.loadByte a = s.loadByte a := by
  rw [State.loadByte, State.loadByte, h.byteAt, h.checkedLoad]

theorem loadHalf (h : AgreeBut p s t) (a : Addr) : t.loadHalf a = s.loadHalf a := by
  rw [State.loadHalf, State.loadHalf, h.halfAt, h.checkedLoad]

theorem loadWord (h : AgreeBut p s t) (a : Addr) : t.loadWord a = s.loadWord a := by
  rw [State.loadWord, State.loadWord, h.wordAt, h.checkedLoad]

theorem popHalf (h : AgreeBut p s t) : t.popHalf = s.popHalf := by
  rw [State.popHalf, State.popHalf, h.popPointer, h.loadHalf]

/-! Updates with the same values keep the agreement. -/

theorem setReg (h : AgreeBut p s t) (r : RegNum) {x y : Half} (hx : y = x) :
    AgreeBut p (s.setReg r x) (t.setReg r y) :=
  { h with regs := by simp only [setReg_regs, h.regs, hx] }

theorem setLow (h : AgreeBut p s t) (r : RegNum) (b : Byte) : AgreeBut p (s.setLow r b) (t.setLow r b) :=
  h.setReg r (by rw [h.reg])

theorem setHigh (h : AgreeBut p s t) (r : RegNum) (b : Byte) : AgreeBut p (s.setHigh r b) (t.setHigh r b) :=
  h.setReg r (by rw [h.reg])

theorem setFlags (h : AgreeBut p s t) (a b : Bool) : AgreeBut p (s.setFlags a b) (t.setFlags a b) :=
  { h with z := fun _ => rfl, v := fun _ => rfl }

theorem setPc (h : AgreeBut p s t) {a b : Addr} (ha : p ≠ .pc → b = a) : AgreeBut p (s.setPc a) (t.setPc b) :=
  { h with pc := ha }

theorem advance (h : AgreeBut p s t) (n : Nat) : AgreeBut p (s.advance n) (t.advance n) :=
  h.setPc fun hp => by rw [h.pc hp]

theorem bump (h : AgreeBut p s t) (n : Nat) : AgreeBut p (s.bump n) (t.bump n) :=
  { h with draws := by simp only [bump_draws, h.draws] }

theorem halt (h : AgreeBut p s t) : AgreeBut p s.halt t.halt := { h with halted := rfl }

theorem writePair (h : AgreeBut p s t) (site : AnyofSite) (d e : RegNum) (x : Half) {y z : Half} (hy : z = y) :
    AgreeBut p (s.writePair site d e x y) (t.writePair site d e x z) := by
  unfold State.writePair
  split
  · exact (h.setReg d (by simp only [State.anyof, h.draws, hy])).bump 1
  · exact (h.setReg d rfl).setReg e hy

/-- The ALU's execution reads the draw's number, `rd` and its operand only. -/
theorem aluApply (h : AgreeBut p s t) (op : AluOp) (rd : RegNum) (len : Nat) {b c : Half} (hb : c = b) :
    AgreeBut p (aluApply op rd b len s) (aluApply op rd c len t) := by
  unfold Machine.aluApply
  subst hb
  rw [h.reg, h.draws]
  exact (((h.setReg rd rfl).setFlags _ _).bump _).advance len

theorem mulApply (h : AgreeBut p s t) (site : AnyofSite) (r : MulRegs) (x : Word) (v : Bool) :
    AgreeBut p (mulApply site r x v s) (mulApply site r x v t) :=
  (((h.writePair site r.high r.low _ rfl).setFlags _ _).bump 1).advance 5

end AgreeBut

/-! Outcomes that agree. -/

theorem outcomesAgree_mono {R R' : State → State → Prop} (hR : ∀ s t, R s t → R' s t)
    {o o' : Host.Outcome State Fault Refusal} (h : OutcomesAgree R o o') : OutcomesAgree R' o o' := by
  cases o with
  | next => cases o' with
    | next => exact hR _ _ h
    | fault | refused => exact h
  | fault | refused => cases o' <;> exact h

/-- After one and the same outcome, continuations that agree. -/
theorem outcomesAgree_andThen {α : Type} {R : State → State → Prop} {o o' : Host.Outcome α Fault Refusal}
    {f g : α → Host.Outcome State Fault Refusal} (ho : o' = o) (hfg : ∀ x, OutcomesAgree R (f x) (g x)) :
    OutcomesAgree R (andThen o f) (andThen o' g) := by
  subst ho
  cases o' with
  | next x => exact hfg x
  | fault | refused => rfl

/-- After outcomes that agree, continuations that keep the agreement. -/
theorem outcomesAgree_andThen_of_agree {R : State → State → Prop} {o o' : Host.Outcome State Fault Refusal}
    {f g : State → Host.Outcome State Fault Refusal} (h : OutcomesAgree R o o')
    (hfg : ∀ s t, R s t → OutcomesAgree R (f s) (g t)) : OutcomesAgree R (andThen o f) (andThen o' g) := by
  cases o with
  | next => cases o' with
    | next => exact hfg _ _ h
    | fault | refused => exact h.elim
  | fault | refused => cases o' with
    | next => exact h.elim
    | fault | refused => exact h

namespace AgreeBut

theorem storeBytes (h : AgreeBut p s t) {a b : Addr} {bs cs : List Byte} (ha : b = a) (hb : cs = bs) :
    OutcomesAgree (AgreeBut p) (s.storeBytes a bs) (t.storeBytes b cs) := by
  subst ha hb
  unfold State.storeBytes
  rw [h.storeFault]
  cases s.storeFault b cs.length with
  | some f => rfl
  | none => exact { h with mem := by simp only [h.mem] }

theorem pushHalf (h : AgreeBut p s t) {x y : Half} (hx : y = x) :
    OutcomesAgree (AgreeBut p) (s.pushHalf x) (t.pushHalf y) :=
  outcomesAgree_andThen_of_agree (h.storeBytes (by rw [h.reg]) (by rw [hx])) fun _ _ hu =>
    hu.setReg spReg (by rw [h.reg])

/-- A store and the step to the next instruction: the MOV stores. -/
theorem storeAdvance (h : AgreeBut p s t) {a b : Addr} {bs cs : List Byte} (len : Nat) (ha : b = a) (hb : cs = bs) :
    OutcomesAgree (AgreeBut p) (andThen (s.storeBytes a bs) fun u => .next (u.advance len))
      (andThen (t.storeBytes b cs) fun u => .next (u.advance len)) :=
  outcomesAgree_andThen_of_agree (h.storeBytes ha hb) fun _ _ hu => hu.advance len

theorem branchIf (h : AgreeBut p s t) {c d : Bool} (target : Addr) (len : Nat) (hc : d = c) :
    OutcomesAgree (AgreeBut p) (branchIf c target len s) (branchIf d target len t) := by
  subst hc
  cases d with
  | true => exact h.setPc fun _ => rfl
  | false => exact h.advance len

theorem movLoadPair (h : AgreeBut p s t) (site : AnyofSite) (d e : RegNum) {a b : Addr} (len : Nat) (ha : b = a) :
    OutcomesAgree (AgreeBut p) (movLoadPair site d e a len s) (movLoadPair site d e b len t) := by
  subst ha
  exact outcomesAgree_andThen (h.loadWord b) fun _ => (h.writePair site d e _ rfl).advance len

/-- The long multiplies read their roles, their sources and the draw's number only. -/
theorem execUmull (h : AgreeBut p s t) (b2 b3 b4 : RegNum) :
    OutcomesAgree (AgreeBut p) (execUmull b2 b3 b4 s) (execUmull b2 b3 b4 t) := by
  simp only [Machine.execUmull, h.params, h.reg, h.draws]
  exact h.mulApply .umull _ _ _

theorem execSmull (h : AgreeBut p s t) (b2 b3 b4 : RegNum) :
    OutcomesAgree (AgreeBut p) (execSmull b2 b3 b4 s) (execSmull b2 b3 b4 t) := by
  simp only [Machine.execSmull, h.params, h.reg, h.draws]
  exact h.mulApply .smull _ _ _

/-- JSR reads `pc` for the return address (R191). -/
theorem execJsr (h : AgreeBut p s t) (hp : p ≠ .pc) (target : Addr) :
    OutcomesAgree (AgreeBut p) (execJsr target s) (execJsr target t) := by
  have hra : t.returnAddr = s.returnAddr := by simp only [State.returnAddr, h.pc hp]
  unfold Machine.execJsr
  rw [h.params, hra]
  split
  · rfl
  · split
    · exact outcomesAgree_andThen_of_agree (h.pushHalf rfl) fun _ _ hu => hu.setPc fun _ => rfl
    · rfl

theorem execRts (h : AgreeBut p s t) : OutcomesAgree (AgreeBut p) (execRts s) (execRts t) := by
  unfold Machine.execRts
  rw [h.params]
  split
  · rfl
  · exact outcomesAgree_andThen h.popHalf fun _ => (h.setReg spReg h.popPointer).setPc fun _ => rfl

/-- From states that agree but for one part, an instruction that does not read it goes the same way, to states that
agree but for that part: V is read by BRO alone, `pc` by JSR alone, Z by none (R25, R27). -/
theorem exec (h : AgreeBut p s t) {i : Instr} (hbro : p = .v → ∀ target, i ≠ .bro target)
    (hjsr : p = .pc → ∀ target, i ≠ .jsr target) : OutcomesAgree (AgreeBut p) (exec i s) (exec i t) := by
  cases i with
  | nop | wfi | eni | dsi => exact h.advance 2
  | hlt => exact (h.halt.setPc fun hp => by rw [h.pc hp, h.draws]).bump 1
  | addImm rd | subImm rd | mulImm rd | andImm rd | orImm rd | xorImm rd | lshImm rd | rshImm rd =>
    exact h.aluApply _ rd 5 rfl
  | addReg rd rn | subReg rd rn | mulReg rd rn | andReg rd rn | orReg rd rn | xorReg rd rn | lshReg rd rn
  | rshReg rd rn => exact h.aluApply _ rd 4 (h.reg rn)
  | addMem rd a | subMem rd a | mulMem rd a | andMem rd a | orMem rd a | xorMem rd a | lshMem rd a | rshMem rd a =>
    exact outcomesAgree_andThen (h.loadHalf a) fun _ => h.aluApply _ rd 7 rfl
  | movImm rd => exact (h.setReg rd rfl).advance 5
  | movImmPair rd rn => exact (h.writePair .movImmPair rd rn _ rfl).advance 8
  | movReg rd rn => exact (h.setReg rd (h.reg rn)).advance 4
  | movLdLow rd a => exact outcomesAgree_andThen (h.loadByte a) fun b => (h.setLow rd b).advance 7
  | movLdHigh rd a => exact outcomesAgree_andThen (h.loadByte a) fun b => (h.setHigh rd b).advance 7
  | movLdHalf rd a => exact outcomesAgree_andThen (h.loadHalf a) fun _ => (h.setReg rd rfl).advance 7
  | movLdPair rd rn1 a => exact h.movLoadPair .movLdPair rd rn1 8 rfl
  | movStLow rd | movStHigh rd | movStHalf rd => exact h.storeAdvance 7 rfl (by rw [h.reg])
  | movStPair rd rn1 => exact h.storeAdvance 8 rfl (by rw [h.reg, h.reg])
  | movLdLowOff rd rn off =>
    exact outcomesAgree_andThen (by rw [h.effAddr, h.loadByte]) fun b => (h.setLow rd b).advance 8
  | movLdHighOff rd rn off =>
    exact outcomesAgree_andThen (by rw [h.effAddr, h.loadByte]) fun b => (h.setHigh rd b).advance 8
  | movLdHalfOff rd rn off =>
    exact outcomesAgree_andThen (by rw [h.effAddr, h.loadHalf]) fun _ => (h.setReg rd rfl).advance 8
  | movLdPairOff rd rd1 rn off => exact h.movLoadPair .movLdPairOff rd rd1 9 (h.effAddr rn off)
  | movStLowOff rd rn off | movStHighOff rd rn off | movStHalfOff rd rn off =>
    exact h.storeAdvance 8 (h.effAddr rn off) (by rw [h.reg])
  | movStPairOff rd rd1 rn off => exact h.storeAdvance 9 (h.effAddr rn off) (by rw [h.reg, h.reg])
  | b target => exact h.setPc fun _ => rfl
  | be rd rn target | bne rd rn target | blt rd rn target | bgt rd rn target =>
    exact h.branchIf target 8 (by rw [h.reg, h.reg])
  | bro target => exact h.branchIf target 6 (h.v fun hp => hbro hp target rfl)
  | umull rd rn rn1 => exact h.execUmull rd rn rn1
  | smull rd rn rn1 => exact h.execSmull rd rn rn1
  | psh rd => exact outcomesAgree_andThen_of_agree (h.pushHalf (h.reg rd)) fun _ _ hu => hu.advance 3
  | pop rd => exact outcomesAgree_andThen h.popHalf fun _ => (h.writePair .pop rd spReg _ h.popPointer).advance 3
  | jsr target => exact h.execJsr (fun hp => hjsr hp target rfl) target
  | rts => exact h.execRts

end AgreeBut
end

/-- Settles O18: Z is no part of what is fetched, and no instruction reads it. -/
theorem zeroFlagIsNeverRead : Obligations.ZeroFlagIsNeverRead := by
  intro s b
  have hagree : AgreeBut .z s { s with z := b } := agreeBut_z_iff.mpr rfl
  have hfetch : ({ s with z := b } : State).fetchInstr = s.fetchInstr := rfl
  refine outcomesAgree_mono (fun _ _ => agreeBut_z_iff.mp) ?_
  unfold step
  rw [hagree.halted]
  split
  · rfl
  · exact outcomesAgree_andThen hfetch fun _ => hagree.exec nofun nofun

/-- Settles O19: of the three parts, V is the one that BRO alone reads. -/
theorem overflowFlagReadByBroOnly : Obligations.OverflowFlagReadByBroOnly := fun _ s b hi =>
  have hagree : AgreeBut .v s { s with v := b } := agreeBut_v_iff.mpr rfl
  outcomesAgree_mono (fun _ _ => agreeBut_v_iff.mp) (hagree.exec (fun _ => hi) nofun)

/-- Settles O20: of the three parts, `pc` is the one that JSR alone reads. -/
theorem onlyJsrSeesPc : Obligations.OnlyJsrSeesPc := fun _ s a hi =>
  have hagree : AgreeBut .pc s { s with pc := a } := agreeBut_pc_iff.mpr rfl
  outcomesAgree_mono (fun _ _ => agreeBut_pc_iff.mp) (hagree.exec nofun fun _ => hi)

/-! What each instruction leaves unchanged of the registers, the flags, `pc` and the halted bit. -/

/-- The halted bit is kept; the flags too unless they are written, and every register but those listed; `pc` moves on by
`len` unless control is transferred. -/
structure Changes (s t : State) (flags transfer : Bool) (len : Nat) (rs : List RegNum) : Prop where
  halted : t.halted = s.halted
  flagsSame : flags = false → FlagsSame s t
  advanced : transfer = false → Advanced s t len
  regsSame : RegsSameExcept s t rs

section
variable {s t u : State} {flags transfer : Bool} {len : Nat} {rs : List RegNum}

theorem changes_of_next (h : (.next u : Host.Outcome State Fault Refusal) = .next t)
    (hu : Changes s u flags transfer len rs) : Changes s t flags transfer len rs := by
  cases h
  exact hu

theorem changes_of_load {α : Type} {o : Host.Outcome α Fault Refusal} {f : α → State}
    (h : andThen o (fun x => .next (f x)) = .next t) (hf : ∀ x, Changes s (f x) flags transfer len rs) :
    Changes s t flags transfer len rs := by
  obtain ⟨x, -, hx⟩ := andThen_eq_next.mp h
  exact changes_of_next hx (hf x)

/-- A store changes memory alone. -/
theorem changes_of_store {a : Addr} {bs : List Byte}
    (h : andThen (s.storeBytes a bs) (fun u => .next (u.advance len)) = .next t) :
    Changes s t false false len [] := by
  obtain ⟨u, hu, hx⟩ := andThen_eq_next.mp h
  obtain ⟨-, rfl⟩ := storeBytes_eq_next.mp hu
  cases hx
  exact ⟨rfl, fun _ => ⟨rfl, rfl⟩, fun _ => rfl, fun _ _ => rfl⟩

/-- A push changes memory and R14; what follows it may move `pc`. -/
theorem changes_of_push {v : Half} {f : State → State}
    (h : andThen (s.pushHalf v) (fun u => .next (f u)) = .next t)
    (hf : ∀ u, Changes u (f u) false transfer len []) : Changes s t false transfer len [spReg] := by
  obtain ⟨u, hu, hx⟩ := andThen_eq_next.mp h
  obtain ⟨-, rfl⟩ := pushHalf_eq_next.mp hu
  cases hx
  obtain ⟨hhalt, hflags, hpc, hregs⟩ := hf _
  refine ⟨hhalt, hflags, hpc, fun r hr => ?_⟩
  rw [hregs r List.not_mem_nil, setReg_reg, if_neg (mt List.mem_singleton.mpr hr)]
  rfl

theorem changes_advance : Changes s (s.advance len) false false len [] :=
  ⟨rfl, fun _ => ⟨rfl, rfl⟩, fun _ => rfl, fun _ _ => rfl⟩

theorem changes_setReg {r : RegNum} {x : Half} : Changes s ((s.setReg r x).advance len) false false len [r] :=
  ⟨rfl, fun _ => ⟨rfl, rfl⟩, fun _ => rfl, fun _ hq => (setReg_reg ..).trans (if_neg (mt List.mem_singleton.mpr hq))⟩

theorem changes_writePair {site : AnyofSite} {d e : RegNum} {x y : Half} :
    Changes s ((s.writePair site d e x y).advance len) false false len [d, e] := by
  refine ⟨by simp, fun _ => by simp [FlagsSame], fun _ => by simp [Advanced], fun q hq => ?_⟩
  obtain ⟨hd, he⟩ : q ≠ d ∧ q ≠ e := by simpa using hq
  exact writePair_reg_frame s site d e x y q hd he

theorem changes_setPc {target : Addr} : Changes s (s.setPc target) false true len [] :=
  ⟨rfl, fun _ => ⟨rfl, rfl⟩, nofun, fun _ _ => rfl⟩

theorem changes_aluApply {op : AluOp} {rd : RegNum} {b : Half} :
    Changes s (aluApply op rd b len s) true false len [rd] := by
  obtain ⟨-, -, -, hpc, hregs, -, hhalt, -⟩ := aluDone_aluApply op rd b len s
  exact ⟨hhalt, nofun, fun _ => hpc, hregs⟩

theorem changes_mulApply {site : AnyofSite} {r : MulRegs} {p : Word} {v : Bool} :
    Changes s (mulApply site r p v s) true false 5 [r.high, r.low] := by
  obtain ⟨-, -, -, hpc, hregs, -, hhalt, -⟩ := mulDone_mulApply site r p v s
  exact ⟨hhalt, nofun, fun _ => hpc, hregs⟩

theorem changes_branchIf {cond : Bool} {target : Addr} {n : Nat} (h : branchIf cond target n s = .next t) :
    Changes s t false true len [] := by
  obtain ⟨_, hu, ⟨hregs, hflags, -, hhalt, -⟩, -⟩ := branchIf_eq cond target n s
  cases hu.symm.trans h
  exact ⟨hhalt, fun _ => hflags, nofun, hregs⟩

/-- JSR goes on with its push and its target (R191). -/
theorem changes_execJsr {target : Addr} (h : execJsr target s = .next t) : Changes s t false true len [spReg] := by
  unfold execJsr at h
  split at h
  · cases h
  · split at h
    · exact changes_of_push h fun _ => changes_setPc
    · cases h

/-- RTS goes on with R14 moved and `pc` popped (R192). -/
theorem changes_execRts (h : execRts s = .next t) : Changes s t false true len [spReg] := by
  unfold execRts at h
  split at h
  · cases h
  · refine changes_of_load h fun v => ⟨rfl, fun _ => ⟨rfl, rfl⟩, nofun, fun r hr => ?_⟩
    exact (setReg_reg ..).trans (if_neg (mt List.mem_singleton.mpr hr))

/-- The registers a long multiply writes are its two destinations, under each reading of its register bytes (R183). -/
theorem regsWritten_umull (roles : MullRoles) (b2 b3 b4 : RegNum) :
    (Instr.umull b2 b3 b4).regsWritten roles = [(mulRegs roles b2 b3 b4).high, (mulRegs roles b2 b3 b4).low] := by
  cases roles <;> rfl

theorem regsWritten_smull (roles : MullRoles) (b2 b3 b4 : RegNum) :
    (Instr.smull b2 b3 b4).regsWritten roles = [(mulRegs roles b2 b3 b4).high, (mulRegs roles b2 b3 b4).low] := by
  cases roles <;> rfl

/-- Every instruction but HLT keeps the halted bit, and changes of registers, flags and `pc` no more than `regsWritten`,
`writesFlags` and `transfersControl` say (R23, R26, R27). -/
theorem exec_changes {i : Instr} (hi : i ≠ .hlt) (h : exec i s = .next t) :
    Changes s t i.writesFlags i.transfersControl i.length (i.regsWritten s.params.mullRoles) := by
  cases i with
  | hlt => exact absurd rfl hi
  | nop | wfi | eni | dsi => exact changes_of_next h changes_advance
  | addImm | subImm | mulImm | andImm | orImm | xorImm | lshImm | rshImm
  | addReg | subReg | mulReg | andReg | orReg | xorReg | lshReg | rshReg =>
    exact changes_of_next h changes_aluApply
  | addMem | subMem | mulMem | andMem | orMem | xorMem | lshMem | rshMem =>
    exact changes_of_load h fun _ => changes_aluApply
  | movImm | movReg => exact changes_of_next h changes_setReg
  | movImmPair => exact changes_of_next h changes_writePair
  | movLdLow | movLdHigh | movLdHalf | movLdLowOff | movLdHighOff | movLdHalfOff =>
    exact changes_of_load h fun _ => changes_setReg
  | movLdPair | movLdPairOff => exact changes_of_load h fun _ => changes_writePair
  | movStLow | movStHigh | movStHalf | movStPair | movStLowOff | movStHighOff | movStHalfOff | movStPairOff =>
    exact changes_of_store h
  | b => exact changes_of_next h changes_setPc
  | be | bne | blt | bgt | bro => exact changes_branchIf h
  | umull => rw [regsWritten_umull]; exact changes_of_next h changes_mulApply
  | smull => rw [regsWritten_smull]; exact changes_of_next h changes_mulApply
  | psh => exact changes_of_push h fun _ => changes_advance
  | pop => exact changes_of_load h fun _ => changes_writePair
  | jsr => exact changes_execJsr h
  | rts => exact changes_execRts h
end

/-- HLT sets the halted bit and leaves registers, flags, memory and parameters as they are (R196). -/
theorem exec_hlt (s : State) : ∃ t, exec .hlt s = .next t ∧ t.halted = true ∧ RegsSameExcept s t [] ∧ FlagsSame s t ∧
    MemSame s t ∧ t.params = s.params :=
  ⟨_, rfl, rfl, fun _ _ => rfl, ⟨rfl, rfl⟩, fun _ => rfl, rfl⟩

/-- After HLT, registers and flags are as before. -/
theorem regs_flags_of_exec_hlt {s t : State} (h : exec .hlt s = .next t) : RegsSameExcept s t [] ∧ FlagsSame s t := by
  obtain ⟨_, hu, -, hregs, hflags, -, -⟩ := exec_hlt s
  cases hu.symm.trans h
  exact ⟨hregs, hflags⟩

/-- Settles O11: the halted bit is looked at before anything else. -/
theorem haltedHasNoSuccessor : Obligations.HaltedHasNoSuccessor := fun _ hs => if_pos hs

/-- Settles O16: HLT's own meaning, and the rule of what every other instruction changes. -/
theorem hltAloneHalts : Obligations.HltAloneHalts := by
  refine ⟨rfl, fun s t hs h => ?_, exec_hlt, fun i s t hi h => (exec_changes hi h).halted⟩
  cases (haltedHasNoSuccessor s hs).symm.trans h

/-- Settles O17: the rule of what an instruction changes, beside HLT's. -/
theorem flagsWrittenByListedOnly : Obligations.FlagsWrittenByListedOnly := by
  intro i s t hw h
  rcases eq_or_ne i .hlt with rfl | hi
  · exact (regs_flags_of_exec_hlt h).2
  · exact (exec_changes hi h).flagsSame hw

/-- Settles O22: the rule of what an instruction changes, beside HLT's. -/
theorem registersWrittenAreNamed : Obligations.RegistersWrittenAreNamed := by
  intro i s t h
  rcases eq_or_ne i .hlt with rfl | hi
  · exact (regs_flags_of_exec_hlt h).1
  · exact (exec_changes hi h).regsSame

/-- The encoder writes as many bytes as R64's table says. -/
theorem length_encode (i : Instr) : (encode i).length = i.length := by
  cases i <;> rfl

/-- Settles O21: `pc` moves by the length of R64's table, which is that of the encoding. -/
theorem sequentialAdvance : Obligations.SequentialAdvance := by
  intro i s t hseq hi h
  rw [length_encode]
  exact (exec_changes hi h).advanced hseq

/-! The ALU's operations on numbers, and the forms of one operation. -/

/-- The clamped difference is the difference of natural numbers (R105). -/
theorem aluResult_sub : aluResult .sub = fun a b => BitVec.ofNat 16 (a.toNat - b.toNat) := by
  funext a b
  apply BitVec.eq_of_toNat_eq
  simp only [aluResult]
  split
  · next h =>
    rw [BitVec.toNat_sub_of_le h, BitVec.toNat_ofNat, Nat.mod_eq_of_lt]
    omega
  · next h =>
    rw [BitVec.le_def, not_le] at h
    simp [Nat.sub_eq_zero_of_le h.le]

theorem shiftAmount_toNat (b : Half) : (shiftAmount b).toNat = b.toNat % 32 := by
  rw [shiftAmount, BitVec.toNat_setWidth]

theorem shiftAmount_eq_extractLsb' (b : Half) : shiftAmount b = b.extractLsb' 0 5 := by
  apply BitVec.eq_of_toNat_eq
  rw [shiftAmount_toNat, BitVec.extractLsb'_toNat, Nat.shiftRight_zero]

theorem aluResult_lsh : aluResult .lsh = fun a b => BitVec.ofNat 16 (a.toNat * 2 ^ (b.toNat % 32)) := by
  funext a b
  apply BitVec.eq_of_toNat_eq
  rw [aluResult, BitVec.toNat_shiftLeft, shiftAmount_toNat, Nat.shiftLeft_eq, BitVec.toNat_ofNat]

theorem aluResult_rsh : aluResult .rsh = fun a b => BitVec.ofNat 16 (a.toNat / 2 ^ (b.toNat % 32)) := by
  funext a b
  apply BitVec.eq_of_toNat_eq
  rw [aluResult, BitVec.toNat_ushiftRight, shiftAmount_toNat, Nat.shiftRight_eq_div_pow, BitVec.toNat_ofNat,
    Nat.mod_eq_of_lt ((Nat.div_le_self ..).trans_lt a.isLt)]

theorem aluOverflow_lsh : aluOverflow .lsh = fun k a b => Config.flagVLsh k a (b.extractLsb' 0 5) := by
  funext k a b
  rw [aluOverflow, shiftAmount_eq_extractLsb']

theorem aluOverflow_rsh : aluOverflow .rsh = fun k a b => Config.flagVRsh k a (b.extractLsb' 0 5) := by
  funext k a b
  rw [aluOverflow, shiftAmount_eq_extractLsb']

/-- Three forms that are the immediate, register and memory mode of one operation (R100), with its encodings, give its
result and flags (R101). -/
theorem aluFormsGive_of_modes {opcode : Byte} {imm : RegNum → Half → Instr} {reg : RegNum → RegNum → Instr}
    {mem : RegNum → Addr → Instr} (op : AluOp)
    (himm : ∀ rd i, encode (imm rd i) = [0x00, opcode, regByte rd, hiByte i, loByte i] ∧
      exec (imm rd i) = aluImm op rd i)
    (hreg : ∀ rd rn, encode (reg rd rn) = [0x01, opcode, regByte rd, regByte rn] ∧ exec (reg rd rn) = aluReg op rd rn)
    (hmem : ∀ rd a, encode (mem rd a) = [0x02, opcode, regByte rd] ++ wordBytes a ∧ exec (mem rd a) = aluMem op rd a) :
    AluFormsGive opcode imm reg mem (aluResult op) (aluOverflow op) := by
  refine ⟨fun rd i => (himm rd i).1, fun rd rn => (hreg rd rn).1, fun rd a => (hmem rd a).1, fun rd i s => ?_,
    fun rd rn s => ?_, fun rd a s hs => ?_, fun rd a s f hf => ?_⟩
  · rw [(himm rd i).2]
    exact ⟨_, rfl, aluDone_aluApply op rd i 5 s⟩
  · rw [(hreg rd rn).2]
    exact ⟨_, rfl, aluDone_aluApply op rd (s.reg rn) 4 s⟩
  · rw [(hmem rd a).2, aluMem, State.loadHalf, checkedLoad_of_readable _ hs]
    exact ⟨_, rfl, aluDone_aluApply op rd (s.halfAt a) 7 s⟩
  · rw [(hmem rd a).2, aluMem, State.loadHalf, checkedLoad_of_fault _ hf, andThen_fault]

/-- Settles O30: the common ALU execution with the clamped difference. -/
theorem subForms : Obligations.SubForms := by
  unfold Obligations.SubForms
  rw [← aluResult_sub]
  exact aluFormsGive_of_modes .sub (fun _ _ => ⟨rfl, rfl⟩) (fun _ _ => ⟨rfl, rfl⟩) fun _ _ => ⟨rfl, rfl⟩

/-- Settles O35: the common ALU execution with the shift as a product. -/
theorem lshForms : Obligations.LshForms := by
  unfold Obligations.LshForms
  rw [← aluResult_lsh, ← aluOverflow_lsh]
  exact aluFormsGive_of_modes .lsh (fun _ _ => ⟨rfl, rfl⟩) (fun _ _ => ⟨rfl, rfl⟩) fun _ _ => ⟨rfl, rfl⟩

/-- Settles O36: the common ALU execution with the shift as a quotient. -/
theorem rshForms : Obligations.RshForms := by
  unfold Obligations.RshForms
  rw [← aluResult_rsh, ← aluOverflow_rsh]
  exact aluFormsGive_of_modes .rsh (fun _ _ => ⟨rfl, rfl⟩) (fun _ _ => ⟨rfl, rfl⟩) fun _ _ => ⟨rfl, rfl⟩

/-! The long multiplies under each reading of their register bytes. -/

/-- UMULL goes on, with its product and flags over the registers by role, however the roles are read (R181). -/
theorem exec_umull (b2 b3 b4 : RegNum) (s : State) : ∃ t, exec (.umull b2 b3 b4) s = .next t ∧
    ∀ r, mulRegs s.params.mullRoles b2 b3 b4 = r → MulDone s t r.high r.low
      (umullProduct (s.reg r.srcA) (s.reg r.srcB)) (umullOverflow s.draws (s.reg r.srcA) (s.reg r.srcB)) := by
  refine ⟨_, rfl, ?_⟩
  rintro _ rfl
  exact mulDone_mulApply ..

/-- SMULL goes on, with its product and flags over the registers by role, however the roles are read (R182). -/
theorem exec_smull (b2 b3 b4 : RegNum) (s : State) : ∃ t, exec (.smull b2 b3 b4) s = .next t ∧
    ∀ r, mulRegs s.params.mullRoles b2 b3 b4 = r → MulDone s t r.high r.low
      (smullProduct (s.reg r.srcA) (s.reg r.srcB)) (smullOverflow s.draws (s.reg r.srcA) (s.reg r.srcB)) := by
  refine ⟨_, rfl, ?_⟩
  rintro _ rfl
  exact mulDone_mulApply ..

/-- Settles O48: the three readings are three choices of sources and destinations (R183). -/
theorem umullResult : Obligations.UmullResult := by
  refine fun b2 b3 b4 => ⟨rfl, fun s => ?_⟩
  obtain ⟨t, ht, hdone⟩ := exec_umull b2 b3 b4 s
  exact ⟨t, ht, fun hr => hdone ⟨b2, b3, b2, b4⟩ (by rw [hr]; rfl),
    fun hr => hdone ⟨b3, b4, b3, b2⟩ (by rw [hr]; rfl), fun hr => hdone ⟨b4, b3, b4, b2⟩ (by rw [hr]; rfl)⟩

/-- Settles O49: as O48, with the signed product. -/
theorem smullResult : Obligations.SmullResult := by
  refine fun b2 b3 b4 => ⟨rfl, fun s => ?_⟩
  obtain ⟨t, ht, hdone⟩ := exec_smull b2 b3 b4 s
  exact ⟨t, ht, fun hr => hdone ⟨b2, b3, b2, b4⟩ (by rw [hr]; rfl),
    fun hr => hdone ⟨b3, b4, b3, b2⟩ (by rw [hr]; rfl), fun hr => hdone ⟨b4, b3, b4, b2⟩ (by rw [hr]; rfl)⟩

/-! Reset states. -/

/-- A reset state with nothing loaded lists no address, so none that is unmapped (R35, R42). -/
theorem inv_boot (p : Params) (a : Addr) (rs : Vector Half 16) (z v : Bool) : (State.boot p a rs z v []).Inv :=
  ⟨wf_boot_mem p a rs z v, fun _ hc => absurd hc List.not_mem_nil⟩

/-- Settles O14: `State.reset` is a reset state with nothing loaded. -/
theorem resetMeetsInv : Obligations.ResetMeetsInv := ⟨inv_boot, inv_boot ..⟩

theorem reset_reg (r : RegNum) : State.reset.reg r = 0 := by
  simp [State.reg, State.reset, State.boot, Config.resetReg, Vector.get_eq_getElem]

/-- Settles O59: what a reset state holds, field by field. -/
theorem resetState : Obligations.ResetState :=
  ⟨fun _ _ _ _ _ _ => ⟨rfl, rfl, rfl, rfl, rfl, rfl, rfl⟩, rfl, rfl, reset_reg, rfl, rfl⟩

end Sys2Proof.Proofs
end

section
/-! PROOFS. The family 20_memory: what an instruction writes to memory, what loads and stores give, the order of their
faults, where a faulting access stops its instruction, and the bytes a fetch touches. -/

namespace Sys2Proof.Proofs

open Sys2Proof.Machine Sys2Proof.Machine.Laws Sys2Proof.Laws

/-! What an instruction writes to memory. -/

section
variable {s t : State}

/-- Memory written at mapped addresses only stays canonical and within the map (R42, R44). -/
theorem WritesAt.inv {target : Option (Addr × Nat)} (h : WritesAt s t target) (hs : s.Inv) : t.Inv := by
  obtain ⟨hwf, hlisted⟩ := hs
  have hmap : ∀ a, t.isMapped a = s.isMapped a := fun a => by rw [State.isMapped, h.params_eq, State.isMapped]
  match target, h with
  | none, ⟨hm, _⟩ => exact ⟨hm ▸ hwf, fun c hc => (hmap _).trans (hlisted c (hm ▸ hc))⟩
  | some (a, _), ⟨⟨_, hmapped, _⟩, _, bs, hlen, hm⟩ =>
    refine ⟨hm ▸ wf_writeBytes bs s.mem a hwf, fun c hc => (hmap _).trans ?_⟩
    rcases mem_writeBytes bs s.mem a c (hm ▸ hc) with ⟨k, hk, hck⟩ | hold
    · rw [hck, BitVec.ofNat_toNat, BitVec.setWidth_eq]
      exact hmapped k (hlen ▸ hk)
    · exact hlisted c hold

theorem WritesAt.memSame (h : WritesAt s t none) : MemSame s t :=
  fun c => congrArg (Memory.read · c.toNat) h.1

theorem WritesAt.memSameOutside {a : Addr} {n : Nat} (h : WritesAt s t (some (a, n))) : MemSameOutside s t a n := by
  obtain ⟨_, _, bs, rfl, hm⟩ := h
  exact fun c hc => (congrArg (Memory.read · c.toNat) hm).trans (read_writeBytes_of_ne bs s.mem a c hc)
end

/-- Settles O13: a step is some instruction's meaning, and that writes mapped bytes only. -/
theorem stepKeepsInv : Obligations.StepKeepsInv := by
  intro s t hs h
  obtain ⟨_, _, _, hexec⟩ := step_eq_next.mp h
  exact (exec_writesAt hexec).inv hs

/-- Settles O23: an instruction that goes on writes memory at its store's target only. -/
theorem memoryWrittenAtTargetOnly : Obligations.MemoryWrittenAtTargetOnly := by
  constructor
  · intro i s t h hnone
    have hw : WritesAt s t none := hnone ▸ exec_writesAt h
    exact hw.memSame
  · intro i s t a n h hsome
    have hw : WritesAt s t (some (a, n)) := hsome ▸ exec_writesAt h
    exact hw.memSameOutside

/-! The fault of a data access, in the order of R213. -/

section
variable {s : State} {a : Addr} {n k : Nat}

theorem loadFault_of_misaligned (hd : s.params.dataAlignFault = true) (ha : a.toNat % n ≠ 0) :
    s.loadFault a n = some (.misalignedAccess a) := by
  simp [State.loadFault, hd, ha]

/-- Where alignment is no matter, what is left of a load's faults is the lowest unmapped byte's. -/
theorem loadFault_of_aligned (ha : s.params.dataAlignFault = true → a.toNat % n = 0) :
    s.loadFault a n = (s.lowestUnmapped a n).map .accessFault :=
  if_neg (by simpa using ha)

/-- A store meets every fault that a load meets. -/
theorem storeFault_of_loadFault {f : Fault} (h : s.loadFault a n = some f) : s.storeFault a n = some f := by
  simp [State.storeFault, h]

/-- Where a load meets none, a store's fault is that of the lowest byte in the program text. -/
theorem storeFault_of_loadFault_none (h : s.loadFault a n = none) :
    s.storeFault a n = (s.lowestInText a n).map .codeWrite := by
  simp [State.storeFault, h]

/-- An access with an unmapped byte has a lowest one. -/
theorem exists_lowestUnmapped (hk : k < n) (hu : s.isMapped (a + BitVec.ofNat 32 k) = false) :
    ∃ j, j < n ∧ s.isMapped (a + BitVec.ofNat 32 j) = false ∧
      s.lowestUnmapped a n = some (a + BitVec.ofNat 32 j) ∧
      (a + BitVec.ofNat 32 j).toNat ≤ (a + BitVec.ofNat 32 k).toNat := by
  cases h : s.lowestUnmapped a n with
  | none => simp [lowestUnmapped_eq_none.mp h k hk] at hu
  | some x =>
    obtain ⟨⟨hx, hxu⟩, hle⟩ := lowest_spec h
    obtain ⟨j, hj, rfl⟩ := mem_accessAddrs.mp hx
    exact ⟨j, hj, by simpa using hxu, rfl, hle _ (mem_accessAddrs.mpr ⟨k, hk, rfl⟩) (by simp [hu])⟩
end

/-- Settles O26: the three faults in turn, each where those before it are ruled out. -/
theorem dataFaultOrder : Obligations.DataFaultOrder := by
  refine ⟨fun s a n hd ha => ?_, fun s a n k ha hk hu hlow => ?_, fun s a n k ha hk hmap ht hlow => ?_,
    fun s a n hw => ?_⟩
  · have hload := loadFault_of_misaligned hd ha
    exact ⟨hload, storeFault_of_loadFault hload⟩
  · have hload : s.loadFault a n = some (.accessFault (a + BitVec.ofNat 32 k)) := by
      rw [loadFault_of_aligned ha, lowestUnmapped_eq_some hk hu hlow, Option.map_some]
    exact ⟨hload, storeFault_of_loadFault hload⟩
  · have hload : s.loadFault a n = none := loadFault_eq_none.mpr ⟨ha, hmap⟩
    refine ⟨hload, ?_⟩
    rw [storeFault_of_loadFault_none hload, lowestInText_eq_some hk ht hlow, Option.map_some]
  · have ⟨ha, hmap, _⟩ := hw
    exact ⟨loadFault_eq_none.mpr ⟨ha, hmap⟩, storeFault_eq_none.mpr hw⟩

/-! Values most significant byte first. -/

theorem toNat_joinHalf (hi lo : Byte) : (joinHalf hi lo).toNat = hi.toNat * 2 ^ 8 + lo.toNat := by
  rw [joinHalf, BitVec.toNat_append, ← Nat.shiftLeft_add_eq_or_of_lt lo.isLt, Nat.shiftLeft_eq]

theorem toNat_joinWord (hi lo : Half) : (joinWord hi lo).toNat = hi.toNat * 2 ^ 16 + lo.toNat := by
  rw [joinWord, BitVec.toNat_append, ← Nat.shiftLeft_add_eq_or_of_lt lo.isLt, Nat.shiftLeft_eq]

theorem toNat_halfAt (s : State) (a : Addr) :
    (s.halfAt a).toNat = (s.byteAt a).toNat * 2 ^ 8 + (s.byteAt (a + 1)).toNat := toNat_joinHalf ..

theorem toNat_wordAt (s : State) (a : Addr) :
    (s.wordAt a).toNat = (s.byteAt a).toNat * 2 ^ 24 + (s.byteAt (a + 1)).toNat * 2 ^ 16 +
      (s.byteAt (a + 2)).toNat * 2 ^ 8 + (s.byteAt (a + 3)).toNat := by
  have hlast : a + 2 + 1 = a + 3 := BitVec.add_assoc a 2 1
  rw [State.wordAt, toNat_joinWord, toNat_halfAt, toNat_halfAt, hlast]
  ring

/-- Settles O24: a load that goes on gives the value of its bytes, and its fault is the lowest unmapped byte's. -/
theorem loadsAreBigEndian : Obligations.LoadsAreBigEndian := by
  refine ⟨fun s a h => checkedLoad_of_readable _ h,
    fun s a h => ⟨_, checkedLoad_of_readable _ h, toNat_halfAt s a⟩,
    fun s a h => ⟨_, checkedLoad_of_readable _ h, toNat_wordAt s a⟩,
    fun s a f => ⟨checkedLoad_of_fault _, checkedLoad_of_fault _, checkedLoad_of_fault _⟩,
    fun s a n k hd hk hu => ?_⟩
  obtain ⟨j, hj, hju, hlow, hle⟩ := exists_lowestUnmapped hk hu
  have haligned : s.params.dataAlignFault = true → a.toNat % n = 0 := fun h => by simp [hd] at h
  exact ⟨j, hj, hju, by rw [loadFault_of_aligned haligned, hlow, Option.map_some], hle⟩

/-- A store that may be made puts its bytes at its addresses and changes no other (R44). -/
theorem storeBytes_of_writable {s : State} {a : Addr} {bs : List Byte} (h : s.Writable a bs.length)
    (hlen : bs.length ≤ 4294967296) : ∃ t, s.storeBytes a bs = .next t ∧
      (∀ k (hk : k < bs.length), t.byteAt (a + BitVec.ofNat 32 k) = bs[k]) ∧ MemSameOutside s t a bs.length :=
  ⟨_, storeBytes_eq_next.mpr ⟨h, rfl⟩, byteAt_stored s a bs hlen, memSameOutside_stored s a bs⟩

/-- A store that may not be made stops with a fault. -/
theorem storeBytes_of_not_writable {s : State} {a : Addr} {bs : List Byte} (h : ¬ s.Writable a bs.length) :
    ∃ f, s.storeBytes a bs = .fault f := by
  obtain ⟨f, hf⟩ := Option.ne_none_iff_exists'.mp (mt storeFault_eq_none.mp h)
  exact ⟨f, storeBytes_of_fault hf⟩

/-- The bytes of a word in address order are its bits from the top down (R44). -/
theorem wordBytes_eq_extractLsb' (w : Word) :
    wordBytes w = [w.extractLsb' 24 8, w.extractLsb' 16 8, w.extractLsb' 8 8, w.extractLsb' 0 8] := by
  have hbyte : ∀ m n, m + 8 ≤ 16 → (w.extractLsb' n 16).extractLsb' m 8 = w.extractLsb' (n + m) 8 := by
    intro m n h
    apply BitVec.eq_of_getLsbD_eq
    intro i hi
    have h16 : m + i < 16 := by omega
    simp [hi, h16, Nat.add_assoc]
  simp [wordBytes, halfBytes, hiByte, loByte, hiHalf, loHalf, hbyte]

/-- Settles O25: a store's bytes in address order, and its fault where a byte refuses it. -/
theorem storesAreBigEndian : Obligations.StoresAreBigEndian := by
  refine ⟨fun s a v hw => ?_, fun s a v hw => ?_, fun s a v hw => ?_, fun s a bs k hk hbad => ?_⟩
  · obtain ⟨t, ht, hbytes, hframe⟩ := storeBytes_of_writable (bs := [v]) hw (by simp)
    exact ⟨t, ht, by simpa using hbytes 0 (by simp), hframe⟩
  · obtain ⟨t, ht, hbytes, hframe⟩ :=
      storeBytes_of_writable (bs := [v.extractLsb' 8 8, v.extractLsb' 0 8]) hw (by simp)
    exact ⟨t, ht, by simpa using hbytes 0 (by simp), hbytes 1 (by simp), hframe⟩
  · rw [State.storeWord, wordBytes_eq_extractLsb']
    obtain ⟨t, ht, hbytes, hframe⟩ := storeBytes_of_writable
      (bs := [v.extractLsb' 24 8, v.extractLsb' 16 8, v.extractLsb' 8 8, v.extractLsb' 0 8]) hw (by simp)
    exact ⟨t, ht, by simpa using hbytes 0 (by simp), hbytes 1 (by simp), hbytes 2 (by simp), hbytes 3 (by simp),
      hframe⟩
  · refine storeBytes_of_not_writable fun ⟨_, hmap, htext⟩ => ?_
    simp [hmap k hk, htext k hk] at hbad

/-! An instruction's data access comes before all else that it does. -/

section
variable {i : Instr} {s : State} {a : Addr} {n : Nat}

theorem andThen_assoc {α β γ : Type} (o : Host.Outcome α Fault Refusal) (f : α → Host.Outcome β Fault Refusal)
    (g : β → Host.Outcome γ Fault Refusal) : andThen (andThen o f) g = andThen o fun x => andThen (f x) g := by
  cases o <;> rfl

theorem execRts_of_half16 (h : s.params.retaddrMode = .half16) :
    execRts s = andThen s.popHalf fun v => .next ((s.setReg spReg s.popPointer).setPc (v.setWidth 32)) := by
  simp [execRts, h]

/-- Bits 31:16 of a word are zero exactly where it fits 16 bits (R191). -/
theorem hiHalf_eq_zero_iff {w : Word} : hiHalf w = 0 ↔ w.toNat < 65536 := by
  have hw := w.isLt
  rw [← BitVec.toNat_inj, hiHalf, BitVec.extractLsb'_toNat, Nat.shiftRight_eq_div_pow]
  simp
  omega

theorem execJsr_of_fits {target : Addr} (hmode : s.params.retaddrMode = .half16) (hfits : (s.pc + 6).toNat < 65536) :
    execJsr target s = andThen (s.pushHalf (loHalf s.returnAddr)) fun t => .next (t.setPc target) := by
  have hzero : hiHalf s.returnAddr = 0 := hiHalf_eq_zero_iff.mpr hfits
  simp [execJsr, hmode, hzero]

/-- An instruction with a load is that load, and what it does with the value (R160). -/
theorem exec_eq_of_loadTarget (ht : i.loadTarget s = some (a, n)) (hrts : i = .rts → s.params.retaddrMode = .half16) :
    ∃ (α : Type) (x : α) (f : α → Host.Outcome State Fault Refusal), exec i s = andThen (s.checkedLoad a n x) f := by
  cases i with
  | addMem | subMem | mulMem | andMem | orMem | xorMem | lshMem | rshMem
  | movLdLow | movLdHigh | movLdHalf | movLdPair | movLdLowOff | movLdHighOff | movLdHalfOff | movLdPairOff | pop =>
    cases ht
    exact ⟨_, _, _, rfl⟩
  | rts =>
    cases ht
    exact ⟨_, _, _, execRts_of_half16 (hrts rfl)⟩
  | _ => cases ht

/-- An instruction with a store is that store, and what it does after it. -/
theorem exec_eq_of_storeTarget (ht : i.storeTarget s = some (a, n))
    (hjsr : ∀ target, i = .jsr target → s.params.retaddrMode = .half16 ∧ (s.pc + 6).toNat < 65536) :
    ∃ (bs : List Byte) (f : State → Host.Outcome State Fault Refusal),
      bs.length = n ∧ exec i s = andThen (s.storeBytes a bs) f := by
  cases i with
  | movStLow | movStHigh | movStHalf | movStPair | movStLowOff | movStHighOff | movStHalfOff | movStPairOff =>
    cases ht
    exact ⟨_, _, rfl, rfl⟩
  | psh rd =>
    cases ht
    exact ⟨halfBytes (s.reg rd), _, rfl, andThen_assoc ..⟩
  | jsr target =>
    cases ht
    obtain ⟨hmode, hfits⟩ := hjsr target rfl
    exact ⟨halfBytes (loHalf s.returnAddr), _, rfl, (execJsr_of_fits hmode hfits).trans (andThen_assoc ..)⟩
  | _ => cases ht
end

/-- Settles O27: the load is the instruction's first operation. -/
theorem faultingLoadStops : Obligations.FaultingLoadStops := by
  intro i s a n ht hrts
  obtain ⟨α, x, f, hexec⟩ := exec_eq_of_loadTarget ht hrts
  refine ⟨fun r hr => ?_, fun r hnone hr => ?_⟩
  · rw [hexec, checkedLoad_of_fault x hr, andThen_fault]
  · rw [hexec, checkedLoad_of_refusal x hnone hr, andThen_refused]

/-- Settles O28: the store is the instruction's first operation. -/
theorem faultingStoreStops : Obligations.FaultingStoreStops := by
  intro i s a n r ht hjsr hr
  obtain ⟨bs, f, rfl, hexec⟩ := exec_eq_of_storeTarget ht hjsr
  rw [hexec, storeBytes_of_fault hr, andThen_fault]

/-! The bytes a fetch touches. -/

section
variable {s : State} {form : Form}

theorem step_of_running (h : s.halted = false) : step s = andThen s.fetchInstr fun i => exec i s := by
  simp [step, h]

theorem fetchByte_of_unmapped {a : Addr} (h : s.isMapped a = false) : s.fetchByte a = .fault (.accessFault a) := by
  simp [State.fetchByte, h]

/-- Byte 0 unmapped stops the fetch before all else. -/
theorem fetchInstr_of_unmapped_zero (h : s.isMapped s.pc = false) : s.fetchInstr = .fault (.accessFault s.pc) := by
  rw [State.fetchInstr, fetchByte_of_unmapped h, andThen_fault]

/-- Byte 1 unmapped stops the fetch before the pair is looked at. -/
theorem fetchInstr_of_unmapped_one (h0 : s.isMapped s.pc = true) (h1 : s.isMapped (s.pc + 1) = false) :
    s.fetchInstr = .fault (.accessFault (s.pc + 1)) := by
  rw [State.fetchInstr, fetchByte_of_mapped h0, andThen_next, fetchByte_of_unmapped h1, andThen_fault]

theorem addr_add_two_ofNat (a : Addr) (k : Nat) : a + BitVec.ofNat 32 (k + 2) = a + 2 + BitVec.ofNat 32 k := by
  rw [add_ofNat_succ, add_ofNat_succ, addr_add_one_add_one]

/-- An instruction's own bytes are the two of its pair and those behind them. -/
theorem ownBytes_eq (s : State) (form : Form) : (accessAddrs s.pc form.length).map s.byteAt =
    s.byteAt s.pc :: s.byteAt (s.pc + 1) :: (accessAddrs (s.pc + 2) (form.length - 2)).map s.byteAt := by
  obtain ⟨n, hn⟩ := Nat.exists_eq_add_of_le' (two_le_formLength form)
  rw [hn, accessAddrs_succ, accessAddrs_succ, addr_add_one_add_one, Nat.add_sub_cancel]
  rfl

/-- Where all of an instruction's bytes are mapped, so are the two of its pair and those behind them. -/
theorem ownBytes_mapped (hmap : ∀ j, j < form.length → s.isMapped (s.pc + BitVec.ofNat 32 j) = true) :
    s.isMapped s.pc = true ∧ s.isMapped (s.pc + 1) = true ∧
      ∀ k, k < form.length - 2 → s.isMapped (s.pc + 2 + BitVec.ofNat 32 k) = true := by
  have h2 := two_le_formLength form
  refine ⟨by simpa using hmap 0 (by omega), hmap 1 (by omega), fun k hk => ?_⟩
  rw [← addr_add_two_ofNat]
  exact hmap (k + 2) (by omega)

/-! A fetch once the pair is known. -/

section
variable (hform : opcodeForm (s.byteAt (s.pc + 1)).toNat (s.byteAt s.pc).toNat = some form)
  (hlayout : layoutKnown s.params form = true)
include hform hlayout

/-- The fetch of the bytes behind the pair stops the whole fetch. -/
theorem fetchInstr_of_fetchBytes_fault {f : Fault} (h0 : s.isMapped s.pc = true) (h1 : s.isMapped (s.pc + 1) = true)
    (hf : s.fetchBytes (s.pc + 2) (form.length - 2) = .fault f) : s.fetchInstr = .fault f := by
  simp only [State.fetchInstr, fetchByte_of_mapped h0, fetchByte_of_mapped h1, andThen_next, hform, hlayout, if_true,
    hf, andThen_fault]

/-- What an instruction's own bytes decode to is its operands, read from those behind the pair. -/
theorem decode_ownBytes_eq_ok {x : Instr × List Byte} :
    decode s.params ((accessAddrs s.pc form.length).map s.byteAt) = .ok x ↔
      readOperands s.params form ((accessAddrs (s.pc + 2) (form.length - 2)).map s.byteAt) = some x := by
  rw [ownBytes_eq, decode_eq_ok]
  constructor
  · rintro ⟨form', hform', -, -, hread⟩
    cases hform.symm.trans hform'
    exact hread
  · intro hread
    refine ⟨form, hform, hlayout, ?_, hread⟩
    rw [List.length_map, accessAddrs, List.length_map, List.length_range]
    omega

variable (hmap : ∀ j, j < form.length → s.isMapped (s.pc + BitVec.ofNat 32 j) = true)
include hmap

/-- The instruction fetched is the one its own bytes decode to (R56, R72). -/
theorem fetchInstr_of_decode_ok {x : Instr × List Byte}
    (hd : decode s.params ((accessAddrs s.pc form.length).map s.byteAt) = .ok x) : s.fetchInstr = .next x.1 := by
  obtain ⟨h0, h1, hrest⟩ := ownBytes_mapped hmap
  exact fetchInstr_eq_next.mpr ⟨h0, h1, form, x.2, hform, hlayout, hrest, (decode_ownBytes_eq_ok hform hlayout).mp hd⟩

/-- Own bytes that do not decode are an undefined encoding, once all are fetched (R72, R73). -/
theorem fetchInstr_of_decode_error {e : DecodeError}
    (hd : decode s.params ((accessAddrs s.pc form.length).map s.byteAt) = .error e) :
    s.fetchInstr = .fault (.undefinedInstruction s.pc (s.byteAt s.pc) (s.byteAt (s.pc + 1))) := by
  obtain ⟨h0, h1, hrest⟩ := ownBytes_mapped hmap
  have hread : readOperands s.params form ((accessAddrs (s.pc + 2) (form.length - 2)).map s.byteAt) = none :=
    Option.eq_none_iff_forall_ne_some.mpr fun x hx => by
      cases hd.symm.trans ((decode_ownBytes_eq_ok hform hlayout).mpr hx)
  simp only [State.fetchInstr, fetchByte_of_mapped h0, fetchByte_of_mapped h1, andThen_next, hform, hlayout, if_true,
    fetchBytes_of_mapped hrest, hread]
end
end

/-- Settles O10: byte 0, byte 1, the bytes behind the pair, and then the decoding of exactly these. -/
theorem fetchFaultsAtFirstUnmapped : Obligations.FetchFaultsAtFirstUnmapped := by
  refine ⟨fun s k hrun hk hbelow hu => ?_, fun s form k hrun hform hlayout h0 h1 hk2 hk hu hlow => ?_,
    fun s form hrun hform hlayout hmap => ?_⟩ <;> rw [step_of_running hrun]
  · obtain rfl | rfl : k = 0 ∨ k = 1 := by omega
    · rw [BitVec.add_zero] at hu ⊢
      rw [fetchInstr_of_unmapped_zero hu, andThen_fault]
    · have h0 : s.isMapped s.pc = true := by simpa using hbelow 0 Nat.one_pos
      exact congrArg (andThen · _) (fetchInstr_of_unmapped_one h0 hu)
  · obtain ⟨k, rfl⟩ := Nat.exists_eq_add_of_le' hk2
    rw [addr_add_two_ofNat] at hu hlow ⊢
    have hrest : s.fetchBytes (s.pc + 2) (form.length - 2) =
        .fault (.accessFault (s.pc + 2 + BitVec.ofNat 32 k)) := by
      refine fetchBytes_of_unmapped (by omega) hu fun j hj hju => ?_
      rw [← addr_add_two_ofNat s.pc j] at hju ⊢
      exact hlow (j + 2) (by omega) (by omega) hju
    rw [fetchInstr_of_fetchBytes_fault hform hlayout h0 h1 hrest, andThen_fault]
  · cases hd : decode s.params ((accessAddrs s.pc form.length).map s.byteAt) with
    | ok x => rw [fetchInstr_of_decode_ok hform hlayout hmap hd, andThen_next]
    | error e => rw [fetchInstr_of_decode_error hform hlayout hmap hd, andThen_fault]

/-! Addresses. -/

/-- Settles O45: both addresses widen a register's value without change (R50). -/
theorem effectiveAddresses : Obligations.EffectiveAddresses := by
  have hwiden : ∀ x : Half, (x.setWidth 32).toNat = x.toNat := fun x => by
    rw [BitVec.toNat_setWidth, Nat.mod_eq_of_lt (x.isLt.trans (by decide))]
  refine ⟨fun s rn off => ?_, hwiden⟩
  rw [State.effAddr, BitVec.toNat_add, hwiden]

end Sys2Proof.Proofs
end

section
/-! PROOFS. The family 30_encoding: decoding and encoding undo each other, the opcode map's pairs and lengths, and the
fault of an undefined encoding. All of it rests on one reading of a format: an encoding is the pair of the opcode map,
the register bytes, and the literal bytes (R65). -/

namespace Sys2Proof.Proofs

open Sys2Proof.Machine Sys2Proof.Machine.Laws Sys2Proof.Laws

/-! The fields of a format. -/

/-- The format holds the instruction with these registers and these literal bytes, each in byte order (R65, R66). -/
inductive Fields : Form → Instr → List RegNum → List Byte → Prop
  | n (i : Instr) : Fields (.n i) i [] []
  | r (f : RegNum → Instr) (d : RegNum) : Fields (.r f) (f d) [d] []
  | rr (f : RegNum → RegNum → Instr) (d n : RegNum) : Fields (.rr f) (f d n) [d, n] []
  | ri (f : RegNum → Half → Instr) (d : RegNum) (h : Half) : Fields (.ri f) (f d h) [d] (halfBytes h)
  | rrr (f : RegNum → RegNum → RegNum → Instr) (d n m : RegNum) : Fields (.rrr f) (f d n m) [d, n, m] []
  | a (f : Word → Instr) (w : Word) : Fields (.a f) (f w) [] (wordBytes w)
  | ra (f : RegNum → Word → Instr) (d : RegNum) (w : Word) : Fields (.ra f) (f d w) [d] (wordBytes w)
  | rra (f : RegNum → RegNum → Word → Instr) (d n : RegNum) (w : Word) :
      Fields (.rra f) (f d n w) [d, n] (wordBytes w)
  | rrra (f : RegNum → RegNum → RegNum → Word → Instr) (d m n : RegNum) (w : Word) :
      Fields (.rrra f) (f d m n w) [d, m, n] (wordBytes w)

/-- The register bytes name these registers, under the choice of `REG_HI_NIBBLE` (R61, R73). -/
def ReadRegs (p : Params) : List Byte → List RegNum → Prop := List.Forall₂ fun b r => readReg p b = some r

section
variable {p : Params} {form : Form} {i : Instr} {rs : List RegNum} {bs fs : List Byte}

theorem Fields.length_regs (h : Fields form i rs fs) : rs.length = form.regBytes := by cases h <;> rfl

theorem Fields.of_formAll {P : Instr → Prop} (hP : FormAll P form) (h : Fields form i rs fs) : P i := by
  cases h with
  | n => exact hP
  | r | a => exact hP _
  | rr | ri | ra => exact hP _ _
  | rrr | rra => exact hP _ _ _
  | rrra => exact hP _ _ _ _

theorem regBytes_add_two_le (form : Form) : form.regBytes + 2 ≤ form.length := by
  cases form <;> simp [Form.regBytes, Form.length]

theorem exists_eq_halfBytes (h : fs.length = 2) : ∃ x, fs = halfBytes x := by
  obtain ⟨i1, i0, rfl⟩ := List.length_eq_two.mp h
  exact ⟨joinHalf i1 i0, (halfBytes_joinHalf i1 i0).symm⟩

theorem exists_eq_wordBytes (h : fs.length = 4) : ∃ w, fs = wordBytes w := by
  match fs, h with
  | [w3, w2, w1, w0], _ => exact ⟨_, (wordBytes_joinWord w3 w2 w1 w0).symm⟩

/-- Registers and literal bytes in the numbers a format asks for are the fields of an instruction. -/
theorem exists_fields (hr : rs.length = form.regBytes) (hf : fs.length = form.length - 2 - form.regBytes) :
    ∃ i, Fields form i rs fs := by
  cases form with
  | n i =>
    cases List.length_eq_zero_iff.mp hr
    cases List.length_eq_zero_iff.mp hf
    exact ⟨_, .n i⟩
  | r f =>
    obtain ⟨d, rfl⟩ := List.length_eq_one_iff.mp hr
    cases List.length_eq_zero_iff.mp hf
    exact ⟨_, .r f d⟩
  | rr f =>
    obtain ⟨d, n, rfl⟩ := List.length_eq_two.mp hr
    cases List.length_eq_zero_iff.mp hf
    exact ⟨_, .rr f d n⟩
  | ri f =>
    obtain ⟨d, rfl⟩ := List.length_eq_one_iff.mp hr
    obtain ⟨h, rfl⟩ := exists_eq_halfBytes hf
    exact ⟨_, .ri f d h⟩
  | rrr f =>
    obtain ⟨d, n, m, rfl⟩ := List.length_eq_three.mp hr
    cases List.length_eq_zero_iff.mp hf
    exact ⟨_, .rrr f d n m⟩
  | a f =>
    cases List.length_eq_zero_iff.mp hr
    obtain ⟨w, rfl⟩ := exists_eq_wordBytes hf
    exact ⟨_, .a f w⟩
  | ra f =>
    obtain ⟨d, rfl⟩ := List.length_eq_one_iff.mp hr
    obtain ⟨w, rfl⟩ := exists_eq_wordBytes hf
    exact ⟨_, .ra f d w⟩
  | rra f =>
    obtain ⟨d, n, rfl⟩ := List.length_eq_two.mp hr
    obtain ⟨w, rfl⟩ := exists_eq_wordBytes hf
    exact ⟨_, .rra f d n w⟩
  | rrra f =>
    obtain ⟨d, m, n, rfl⟩ := List.length_eq_three.mp hr
    obtain ⟨w, rfl⟩ := exists_eq_wordBytes hf
    exact ⟨_, .rrra f d m n w⟩

/-- Under every choice of `REG_HI_NIBBLE` the bytes an encoder writes for registers name them. -/
theorem readRegs_map_regByte (p : Params) (rs : List RegNum) : ReadRegs p (rs.map regByte) rs :=
  List.forall₂_map_left_iff.mpr (List.forall₂_same.mpr fun r _ => readReg_regByte p r)

/-- Under `fault` only the bytes an encoder writes name registers. -/
theorem eq_map_regByte_of_readRegs (hp : p.regHiNibble = .fault) (h : ReadRegs p bs rs) : bs = rs.map regByte := by
  induction h with
  | nil => rfl
  | cons hb _ ih => rw [List.map_cons, ← ih, regByte_of_readReg hp hb]

/-- Under `ignore` all bytes name registers: those an encoder writes as the bytes with bits 7:4 cleared. -/
theorem exists_readRegs_of_ignore (hp : p.regHiNibble = .ignore) (bs : List Byte) :
    ∃ rs, ReadRegs p bs rs ∧ rs.map regByte = bs.map fun b => b &&& 0x0F := by
  induction bs with
  | nil => exact ⟨[], .nil, rfl⟩
  | cons b bs ih =>
    obtain ⟨rs, hread, hrs⟩ := ih
    obtain ⟨r, hb, hr⟩ := readReg_of_ignore hp b
    exact ⟨r :: rs, .cons hb hread, by rw [List.map_cons, List.map_cons, hr, hrs]⟩

/-- The operands read are the format's fields: the register bytes, then the literal bytes, then what is left over. -/
theorem readOperands_eq_some {ops rest : List Byte} : readOperands p form ops = some (i, rest) ↔
    ∃ bs rs fs, ops = bs ++ fs ++ rest ∧ ReadRegs p bs rs ∧ Fields form i rs fs := by
  constructor
  · intro h
    cases form with
    | n => cases readOperands_n.mp h; exact ⟨[], [], [], rfl, .nil, .n _⟩
    | r =>
      obtain ⟨b, _, d, rfl, hb, h⟩ := readOperands_r.mp h
      cases h; exact ⟨[b], [d], [], rfl, .cons hb .nil, .r ..⟩
    | rr =>
      obtain ⟨b, c, _, d, n, rfl, hb, hc, h⟩ := readOperands_rr.mp h
      cases h; exact ⟨[b, c], [d, n], [], rfl, .cons hb (.cons hc .nil), .rr ..⟩
    | ri =>
      obtain ⟨b, _, _, _, d, rfl, hb, h⟩ := readOperands_ri.mp h
      cases h; exact ⟨[b], [d], _, by simp, .cons hb .nil, .ri ..⟩
    | rrr =>
      obtain ⟨b, c, e, _, d, n, m, rfl, hb, hc, he, h⟩ := readOperands_rrr.mp h
      cases h; exact ⟨[b, c, e], [d, n, m], [], rfl, .cons hb (.cons hc (.cons he .nil)), .rrr ..⟩
    | a =>
      obtain ⟨_, _, _, _, _, rfl, h⟩ := readOperands_a.mp h
      cases h; exact ⟨[], [], _, by simp, .nil, .a ..⟩
    | ra =>
      obtain ⟨b, _, _, _, _, _, d, rfl, hb, h⟩ := readOperands_ra.mp h
      cases h; exact ⟨[b], [d], _, by simp, .cons hb .nil, .ra ..⟩
    | rra =>
      obtain ⟨b, c, _, _, _, _, _, d, n, rfl, hb, hc, h⟩ := readOperands_rra.mp h
      cases h; exact ⟨[b, c], [d, n], _, by simp, .cons hb (.cons hc .nil), .rra ..⟩
    | rrra =>
      obtain ⟨b, c, e, _, _, _, _, _, d, m, n, rfl, hb, hc, he, h⟩ := readOperands_rrra.mp h
      cases h; exact ⟨[b, c, e], [d, m, n], _, by simp, .cons hb (.cons hc (.cons he .nil)), .rrra ..⟩
  · rintro ⟨bs, rs, fs, rfl, hread, hf⟩
    cases hf with
    | n => cases hread; rfl
    | a => cases hread; simp [readOperands, wordBytes, halfBytes]
    | r | ri | ra =>
      obtain _ | ⟨hb, _ | _⟩ := hread
      simp [readOperands, wordBytes, halfBytes, hb]
    | rr | rra =>
      obtain _ | ⟨hb, _ | ⟨hc, _ | _⟩⟩ := hread
      simp [readOperands, wordBytes, halfBytes, hb, hc]
    | rrr | rrra =>
      obtain _ | ⟨hb, _ | ⟨hc, _ | ⟨he, _ | _⟩⟩⟩ := hread
      simp [readOperands, wordBytes, halfBytes, hb, hc, he]

/-- A decoded list of bytes is the pair of a form whose layout is known, its register bytes, its literal bytes, and what
is left over. -/
theorem decode_eq_ok_iff {rest : List Byte} : decode p bs = .ok (i, rest) ↔
    ∃ b0 b1 form cs rs fs, bs = b0 :: b1 :: (cs ++ fs ++ rest) ∧ opcodeForm b1.toNat b0.toNat = some form ∧
      layoutKnown p form = true ∧ ReadRegs p cs rs ∧ Fields form i rs fs := by
  constructor
  · intro h
    match bs, h with
    | b0 :: b1 :: ops, h =>
      obtain ⟨form, hform, hlayout, -, hread⟩ := decode_eq_ok.mp h
      obtain ⟨cs, rs, fs, rfl, hcs, hf⟩ := readOperands_eq_some.mp hread
      exact ⟨b0, b1, form, cs, rs, fs, rfl, hform, hlayout, hcs, hf⟩
  · rintro ⟨b0, b1, form, cs, rs, fs, rfl, hform, hlayout, hcs, hf⟩
    have hread : readOperands p form (cs ++ fs ++ rest) = some (i, rest) :=
      readOperands_eq_some.mpr ⟨cs, rs, fs, rfl, hcs, hf⟩
    exact decode_eq_ok.mpr ⟨form, hform, hlayout, by rw [readOperands_length hread]; omega, hread⟩

/-! The opcode map and the encoder. -/

/-- The encoder writes each row of the opcode map as its pair and its fields: the table, row by row. -/
theorem encode_of_opcodeForm {op spec : Nat} (hform : opcodeForm op spec = some form) (h : Fields form i rs fs) :
    encode i = BitVec.ofNat 8 spec :: BitVec.ofNat 8 op :: (rs.map regByte ++ fs) := by
  unfold opcodeForm at hform
  split at hform <;> cases hform <;> cases h <;> rfl

theorem encode_of_fields {b0 b1 : Byte} (hform : opcodeForm b1.toNat b0.toNat = some form)
    (h : Fields form i rs fs) : encode i = b0 :: b1 :: (rs.map regByte ++ fs) := by
  rw [encode_of_opcodeForm hform h, ← byte_eq_of_toNat rfl, ← byte_eq_of_toNat rfl]

/-- Each row of the opcode map is admitted exactly where its layout is known (R183). -/
theorem opcodeForm_wellFormed {op spec : Nat} (h : opcodeForm op spec = some form) :
    FormAll (fun i => i.wellFormed p = layoutKnown p form) form := by
  unfold opcodeForm at h
  split at h <;> cases h <;> simp [FormAll, layoutKnown, Instr.wellFormed]

/-- Every instruction is in a row of the opcode map. -/
theorem exists_opcodeForm (i : Instr) : ∃ (b0 b1 : Byte) (form : Form) (rs : List RegNum) (fs : List Byte),
    opcodeForm b1.toNat b0.toNat = some form ∧ Fields form i rs fs := by
  refine ⟨(encode i).getD 0 0, (encode i).getD 1 0, ?_⟩
  cases i with
  | nop | hlt | rts | wfi | eni | dsi => exact ⟨_, _, _, rfl, .n ..⟩
  | psh | pop => exact ⟨_, _, _, rfl, .r ..⟩
  | addReg | subReg | mulReg | andReg | orReg | xorReg | lshReg | rshReg | movReg => exact ⟨_, _, _, rfl, .rr ..⟩
  | addImm | subImm | mulImm | andImm | orImm | xorImm | lshImm | rshImm | movImm => exact ⟨_, _, _, rfl, .ri ..⟩
  | umull | smull => exact ⟨_, _, _, rfl, .rrr ..⟩
  | b | bro | jsr => exact ⟨_, _, _, rfl, .a ..⟩
  | addMem | subMem | mulMem | andMem | orMem | xorMem | lshMem | rshMem | movLdLow | movLdHigh | movLdHalf
  | movStLow | movStHigh | movStHalf => exact ⟨_, _, _, rfl, .ra ..⟩
  | movImmPair | movLdPair | movStPair | movLdLowOff | movLdHighOff | movLdHalfOff | movStLowOff | movStHighOff
  | movStHalfOff | be | bne | blt | bgt => exact ⟨_, _, _, rfl, .rra ..⟩
  | movLdPairOff | movStPairOff => exact ⟨_, _, _, rfl, .rrra ..⟩
end

/-- Settles O2: the encoding is the pair of a row and the fields of the instruction there, and those read back. -/
theorem decodeOfEncode : Obligations.DecodeOfEncode := by
  intro p i rest hwf
  obtain ⟨b0, b1, form, rs, fs, hform, hf⟩ := exists_opcodeForm i
  have hlayout : layoutKnown p form = true := (hf.of_formAll (opcodeForm_wellFormed hform)).symm.trans hwf
  rw [encode_of_fields hform hf]
  exact decode_eq_ok_iff.mpr ⟨b0, b1, form, _, rs, fs, rfl, hform, hlayout, readRegs_map_regByte p rs, hf⟩

/-- Settles O3: under `fault` the register bytes that were read are those the encoder writes. -/
theorem decodedBytesAreTheEncoding : Obligations.DecodedBytesAreTheEncoding := by
  intro p bs rest i hp hdec
  obtain ⟨b0, b1, form, cs, rs, fs, rfl, hform, hlayout, hcs, hf⟩ := decode_eq_ok_iff.mp hdec
  refine ⟨(hf.of_formAll (opcodeForm_wellFormed hform)).trans hlayout, ?_⟩
  rw [encode_of_fields hform hf, eq_map_regByte_of_readRegs hp hcs]
  rfl

/-! `REG_HI_NIBBLE`. -/

theorem layoutKnown_regHiNibble (p : Params) (c : RegHiNibble) (form : Form) :
    layoutKnown { p with regHiNibble := c } form = layoutKnown p form := by
  cases form <;> rfl

/-- The bytes behind a pair are the format's register bytes, its literal bytes and what is left over. -/
theorem take_append_fields_append_drop (form : Form) (ops : List Byte) :
    ops.take form.regBytes ++ (ops.drop form.regBytes).take (form.length - 2 - form.regBytes) ++
      ops.drop (form.length - 2) = ops := by
  have hle := regBytes_add_two_le form
  rw [← List.take_add, show form.regBytes + (form.length - 2 - form.regBytes) = form.length - 2 by omega,
    List.take_append_drop]

/-- Settles O4: the bytes that `fault` admits name the same registers under any choice, and under `ignore` the register
bytes name those of the bytes with bits 7:4 cleared. -/
theorem nibbleChoiceKeepsMeaning : Obligations.NibbleChoiceKeepsMeaning := by
  constructor
  · rintro p bs ⟨i, rest⟩ hdec
    obtain ⟨b0, b1, form, cs, rs, fs, rfl, hform, hlayout, hcs, hf⟩ := decode_eq_ok_iff.mp hdec
    cases eq_map_regByte_of_readRegs rfl hcs
    rw [layoutKnown_regHiNibble, ← layoutKnown_regHiNibble p .ignore] at hlayout
    exact decode_eq_ok_iff.mpr ⟨b0, b1, form, _, rs, fs, rfl, hform, hlayout, readRegs_map_regByte _ rs, hf⟩
  · intro p b0 b1 form ops hp hform hlayout hlen
    have hle := regBytes_add_two_le form
    obtain ⟨rs, hread, hrs⟩ := exists_readRegs_of_ignore hp (ops.take form.regBytes)
    have hregs : rs.length = form.regBytes := by
      rw [← hread.length_eq, List.length_take_of_le (by omega)]
    have hlits : ((ops.drop form.regBytes).take (form.length - 2 - form.regBytes)).length =
        form.length - 2 - form.regBytes := List.length_take_of_le (by rw [List.length_drop]; omega)
    obtain ⟨i, hf⟩ := exists_fields hregs hlits
    refine ⟨i, decode_eq_ok_iff.mpr ⟨b0, b1, form, _, rs, _, ?_, hform, hlayout, hread, hf⟩, ?_⟩
    · rw [take_append_fields_append_drop]
    · rw [encode_of_fields hform hf, hrs]
      rfl

/-! The pairs of the opcode map. -/

/-- Settles O5: each row of the map is in the list, and each pair of the list, one by one, has its row. -/
theorem definedPairs : Obligations.DefinedPairs := by
  intro b0 b1
  generalize b0.toNat = spec
  generalize b1.toNat = op
  constructor
  · intro h
    unfold opcodeForm at h
    split at h <;> simp at h ⊢
  · rintro (⟨rfl, rfl⟩ | ⟨hspec, hlow, hhigh⟩ | ⟨hspec, rfl⟩ | ⟨rfl, hlow, hhigh⟩)
    · rfl
    · interval_cases spec <;> interval_cases op <;> rfl
    · interval_cases spec <;> rfl
    · interval_cases op <;> rfl

/-- Settles O6: the form that the first two bytes select has the instruction's length. -/
theorem lengthFromFirstTwoBytes : Obligations.LengthFromFirstTwoBytes := by
  intro p b0 b1 ops rest i hdec
  obtain ⟨form, hform, -, -, hread⟩ := decode_eq_ok.mp hdec
  have hlen := length_of_readOperands hform hread
  refine ⟨⟨form, hform, hlen⟩, ?_⟩
  rw [hlen]
  exact ⟨readOperands_length hread, two_le_formLength form, formLength_le_nine form⟩

/-! Undefined encodings. -/

section
variable {s : State} {form : Form}

/-- A pair outside the map stops the fetch before any other byte. -/
theorem fetchInstr_of_undefined (h0 : s.isMapped s.pc = true) (h1 : s.isMapped (s.pc + 1) = true)
    (hform : opcodeForm (s.byteAt (s.pc + 1)).toNat (s.byteAt s.pc).toNat = none) :
    s.fetchInstr = .fault (.undefinedInstruction s.pc (s.byteAt s.pc) (s.byteAt (s.pc + 1))) := by
  simp only [State.fetchInstr, fetchByte_of_mapped h0, fetchByte_of_mapped h1, andThen_next, hform]

/-- Under `fault`, operands that are read have bits 7:4 zero in each of their register bytes. -/
theorem toNat_lt_of_readOperands {p : Params} {ops rest : List Byte} {i : Instr} {k : Nat} {b : Byte}
    (hp : p.regHiNibble = .fault) (hread : readOperands p form ops = some (i, rest)) (hk : k < form.regBytes)
    (hb : ops[k]? = some b) : b.toNat < 16 := by
  obtain ⟨cs, rs, fs, rfl, hcs, hf⟩ := readOperands_eq_some.mp hread
  cases eq_map_regByte_of_readRegs hp hcs
  rw [← hf.length_regs] at hk
  rw [List.append_assoc, List.getElem?_append_left (by rwa [List.length_map]), List.getElem?_map,
    List.getElem?_eq_getElem hk] at hb
  cases hb
  simp [regByte]
  omega

end

/-- Settles O8: the pairs named are those outside the list of R68. -/
theorem undefinedEncodingFaults : Obligations.UndefinedEncodingFaults := by
  intro s hrun h0 h1 hpair
  have hform : opcodeForm (s.byteAt (s.pc + 1)).toNat (s.byteAt s.pc).toNat = none := by
    rw [← Option.not_isSome_iff_eq_none, definedPairs]
    omega
  rw [step_of_running hrun, fetchInstr_of_undefined h0 h1 hform, andThen_fault]

/-- Settles O9: all bytes are fetched, and an instruction among them would have the register byte below 16. -/
theorem registerNibbleFaults : Obligations.RegisterNibbleFaults := by
  intro s form k hrun hp hform hlayout hmap hk hbyte
  cases hd : decode s.params ((accessAddrs s.pc form.length).map s.byteAt) with
  | error e => rw [step_of_running hrun, fetchInstr_of_decode_error hform hlayout hmap hd, andThen_fault]
  | ok x =>
    have hread := (decode_ownBytes_eq_ok hform hlayout).mp hd
    have hle := regBytes_add_two_le form
    have hget : ((accessAddrs (s.pc + 2) (form.length - 2)).map s.byteAt)[k]? =
        some (s.byteAt (s.pc + BitVec.ofNat 32 (2 + k))) := by
      rw [Nat.add_comm, addr_add_two_ofNat, accessAddrs, List.map_map, List.getElem?_map,
        List.getElem?_range (by omega)]
      rfl
    exact absurd (toNat_lt_of_readOperands hp hread hk hget) (by omega)

/-- Settles O1: ten closed words, decoded. -/
theorem specWordsDecode : Obligations.SpecWordsDecode := by
  unfold Obligations.SpecWordsDecode
  decide

end Sys2Proof.Proofs
end

section
/-! PROOFS. The family 40_alu: the three forms of ADD, MUL, AND, OR and XOR. Each rests on the common ALU execution
(`aluFormsGive_of_modes`) and on the operation's result, on words, being the one of natural numbers modulo 2^16. V is
the same test on both sides. -/

namespace Sys2Proof.Proofs

open Sys2Proof.Machine

/-! The results on numbers. -/

/-- The word sum is the exact sum modulo 2^16 (R102). -/
theorem aluResult_add : aluResult .add = fun a b => BitVec.ofNat 16 (a.toNat + b.toNat) := by
  funext a b
  apply BitVec.eq_of_toNat_eq
  rw [aluResult, BitVec.toNat_add, BitVec.toNat_ofNat]

/-- The word product is the low 16 bits of the exact unsigned product (R108). -/
theorem aluResult_mul : aluResult .mul = fun a b => BitVec.ofNat 16 (a.toNat * b.toNat) := by
  funext a b
  apply BitVec.eq_of_toNat_eq
  rw [aluResult, BitVec.toNat_mul, BitVec.toNat_ofNat]

/-- The bitwise AND of words is that of their values, which fits 16 bits (R111). -/
theorem aluResult_and : aluResult .and = fun a b => BitVec.ofNat 16 (a.toNat &&& b.toNat) := by
  funext a b
  rw [aluResult, ← BitVec.toNat_and, BitVec.ofNat_toNat, BitVec.setWidth_eq]

/-- The bitwise OR of words is that of their values, which fits 16 bits (R114). -/
theorem aluResult_or : aluResult .or = fun a b => BitVec.ofNat 16 (a.toNat ||| b.toNat) := by
  funext a b
  rw [aluResult, ← BitVec.toNat_or, BitVec.ofNat_toNat, BitVec.setWidth_eq]

/-- The bitwise XOR of words is that of their values, which fits 16 bits (R117). -/
theorem aluResult_xor : aluResult .xor = fun a b => BitVec.ofNat 16 (a.toNat ^^^ b.toNat) := by
  funext a b
  rw [aluResult, ← BitVec.toNat_xor, BitVec.ofNat_toNat, BitVec.setWidth_eq]

/-! The forms. -/

/-- Settles O29: the common ALU execution with the sum modulo 2^16. -/
theorem addForms : Obligations.AddForms := by
  unfold Obligations.AddForms
  rw [← aluResult_add]
  exact aluFormsGive_of_modes .add (fun _ _ => ⟨rfl, rfl⟩) (fun _ _ => ⟨rfl, rfl⟩) fun _ _ => ⟨rfl, rfl⟩

/-- Settles O31: the common ALU execution with the truncated product. -/
theorem mulForms : Obligations.MulForms := by
  unfold Obligations.MulForms
  rw [← aluResult_mul]
  exact aluFormsGive_of_modes .mul (fun _ _ => ⟨rfl, rfl⟩) (fun _ _ => ⟨rfl, rfl⟩) fun _ _ => ⟨rfl, rfl⟩

/-- Settles O32: the common ALU execution with the bitwise AND. -/
theorem andForms : Obligations.AndForms := by
  unfold Obligations.AndForms
  rw [← aluResult_and]
  exact aluFormsGive_of_modes .and (fun _ _ => ⟨rfl, rfl⟩) (fun _ _ => ⟨rfl, rfl⟩) fun _ _ => ⟨rfl, rfl⟩

/-- Settles O33: the common ALU execution with the bitwise OR. -/
theorem orForms : Obligations.OrForms := by
  unfold Obligations.OrForms
  rw [← aluResult_or]
  exact aluFormsGive_of_modes .or (fun _ _ => ⟨rfl, rfl⟩) (fun _ _ => ⟨rfl, rfl⟩) fun _ _ => ⟨rfl, rfl⟩

/-- Settles O34: the common ALU execution with the bitwise XOR. -/
theorem xorForms : Obligations.XorForms := by
  unfold Obligations.XorForms
  rw [← aluResult_xor]
  exact aluFormsGive_of_modes .xor (fun _ _ => ⟨rfl, rfl⟩) (fun _ _ => ⟨rfl, rfl⟩) fun _ _ => ⟨rfl, rfl⟩

end Sys2Proof.Proofs
end

section
/-! PROOFS. The family 41_mov: the nineteen forms of MOV. A form is a value put into a register or a pair (R141 to R143),
a load and then such a write (R144 to R147, R152 to R155), or a store (R148 to R151, R156 to R159). Each shape is settled
once, for every address; a form with an offset is the absolute one at `effAddr`. -/

namespace Sys2Proof.Proofs

open Sys2Proof.Machine Sys2Proof.Machine.Laws Sys2Proof.Laws

/-! What a write to registers leaves. -/

section
variable {s : State} {len : Nat}

theorem movLoaded_setReg (r : RegNum) (x : Half) : MovLoaded s ((s.setReg r x).advance len) [r] len := by
  obtain ⟨hhalted, hflags, hadvanced, hregs⟩ := changes_setReg (s := s) (r := r) (x := x) (len := len)
  exact ⟨hregs, hflags rfl, fun _ => rfl, hadvanced rfl, hhalted, rfl⟩

theorem movLoaded_writePair (site : AnyofSite) (d e : RegNum) (x y : Half) :
    MovLoaded s ((s.writePair site d e x y).advance len) [d, e] len := by
  obtain ⟨hhalted, hflags, hadvanced, hregs⟩ :=
    changes_writePair (s := s) (site := site) (d := d) (e := e) (x := x) (y := y) (len := len)
  exact ⟨hregs, hflags rfl, fun c => writePair_byteAt s site d e x y c, hadvanced rfl, hhalted,
    writePair_params s site d e x y⟩

theorem reg_advance_setReg_same (r : RegNum) (x : Half) : ((s.setReg r x).advance len).reg r = x := by simp
end

/-! The shape of a load, and the four loads. -/

section
variable {i : Instr} {s : State} {a : Addr} {n len : Nat} {rs : List RegNum} {rd re : RegNum}

/-- An instruction that is a load and a step on with the loaded value stops with the load's fault, and goes on where the
bytes are readable. -/
theorem loadStops_and_of_readable {α : Type} {x : α} {f : α → State} {P : State → Prop}
    (hexec : exec i s = andThen (s.checkedLoad a n x) fun y => .next (f y)) (hP : P (f x))
    (hframe : MovLoaded s (f x) rs len) :
    LoadStops s a n i ∧ (s.Readable a n → ∃ t, exec i s = .next t ∧ P t ∧ MovLoaded s t rs len) := by
  refine ⟨fun r hr => ?_, fun hreadable => ⟨f x, ?_, hP, hframe⟩⟩
  · rw [hexec, checkedLoad_of_fault x hr, andThen_fault]
  · rw [hexec, checkedLoad_of_readable x hreadable, andThen_next]

/-- A byte into bits 7:0 (R144, R152). -/
theorem exec_of_movLoadLow (hexec : exec i s = movLoadLow rd a len s) :
    LoadStops s a 1 i ∧ (s.Readable a 1 → ∃ t, exec i s = .next t ∧
      t.reg rd = (s.reg rd).extractLsb' 8 8 ++ s.byteAt a ∧ MovLoaded s t [rd] len) :=
  loadStops_and_of_readable (P := fun t => t.reg rd = _) hexec (reg_advance_setReg_same ..) (movLoaded_setReg ..)

/-- A byte into bits 15:8 (R145, R153). -/
theorem exec_of_movLoadHigh (hexec : exec i s = movLoadHigh rd a len s) :
    LoadStops s a 1 i ∧ (s.Readable a 1 → ∃ t, exec i s = .next t ∧
      t.reg rd = s.byteAt a ++ (s.reg rd).extractLsb' 0 8 ∧ MovLoaded s t [rd] len) :=
  loadStops_and_of_readable (P := fun t => t.reg rd = _) hexec (reg_advance_setReg_same ..) (movLoaded_setReg ..)

/-- A halfword, most significant byte first (R146, R154). -/
theorem exec_of_movLoadHalf (hexec : exec i s = movLoadHalf rd a len s) :
    LoadStops s a 2 i ∧ (s.Readable a 2 → ∃ t, exec i s = .next t ∧
      t.reg rd = s.byteAt a ++ s.byteAt (a + 1) ∧ MovLoaded s t [rd] len) :=
  loadStops_and_of_readable (P := fun t => t.reg rd = _) hexec (reg_advance_setReg_same ..) (movLoaded_setReg ..)

/-- Bits 31:16 of a loaded word are the two bytes at its address. -/
theorem hiHalf_wordAt (s : State) (a : Addr) : hiHalf (s.wordAt a) = s.byteAt a ++ s.byteAt (a + 1) :=
  hiHalf_joinWord ..

/-- Bits 15:0 of a loaded word are the two bytes behind those. -/
theorem loHalf_wordAt (s : State) (a : Addr) : loHalf (s.wordAt a) = s.byteAt (a + 2) ++ s.byteAt (a + 3) := by
  have hlast : a + 2 + 1 = a + 3 := BitVec.add_assoc a 2 1
  rw [State.wordAt, loHalf_joinWord, State.halfAt, joinHalf, hlast]

/-- A word into a pair, high half to the first register (R147, R155). -/
theorem exec_of_movLoadPair {site : AnyofSite} (hexec : exec i s = movLoadPair site rd re a len s) :
    LoadStops s a 4 i ∧ (s.Readable a 4 → ∃ t, exec i s = .next t ∧
      PairHolds t rd re (s.byteAt a ++ s.byteAt (a + 1)) (s.byteAt (a + 2) ++ s.byteAt (a + 3)) ∧
      MovLoaded s t [rd, re] len) := by
  rw [← hiHalf_wordAt, ← loHalf_wordAt]
  exact loadStops_and_of_readable (P := fun t => PairHolds t rd re _ _) hexec (pairHolds_writePair ..)
    (movLoaded_writePair ..)
end

/-! The shape of a store. -/

section
variable {i : Instr} {s : State} {a : Addr} {len : Nat}

/-- An instruction that is a store and a step on stops with the store's fault, and where the bytes are writable leaves
them in memory. -/
theorem storeStops_and_of_writable {bs : List Byte} (hlen : bs.length ≤ 4294967296)
    (hexec : exec i s = andThen (s.storeBytes a bs) fun t => .next (t.advance len)) :
    StoreStops s a bs.length i ∧
      (s.Writable a bs.length → ∃ t, exec i s = .next t ∧ MovStored s t a bs len) := by
  refine ⟨fun r hr => ?_, fun hwritable => ?_⟩
  · rw [hexec, storeBytes_of_fault hr, andThen_fault]
  · rw [hexec, storeBytes_eq_next.mpr ⟨hwritable, rfl⟩, andThen_next]
    exact ⟨_, rfl, byteAt_stored s a bs hlen, memSameOutside_stored s a bs, fun _ _ => rfl, ⟨rfl, rfl⟩, rfl, rfl, rfl⟩

/-- A byte (R148, R149, R156, R157). -/
theorem exec_of_movStoreByte {b : Byte} (hexec : exec i s = movStoreByte a b len s) :
    StoreStops s a 1 i ∧ (s.Writable a 1 → ∃ t, exec i s = .next t ∧ MovStored s t a [b] len) :=
  storeStops_and_of_writable (bs := [b]) (by simp) hexec

/-- A halfword, most significant byte first (R150, R158). -/
theorem exec_of_movStoreHalf {h : Half} (hexec : exec i s = movStoreHalf a h len s) :
    StoreStops s a 2 i ∧ (s.Writable a 2 → ∃ t, exec i s = .next t ∧
      MovStored s t a [h.extractLsb' 8 8, h.extractLsb' 0 8] len) :=
  storeStops_and_of_writable (bs := halfBytes h) (by simp [halfBytes]) hexec

/-- Two halfwords as one word, the first at the lower addresses (R151, R159). -/
theorem exec_of_movStoreWord {x y : Half} (hexec : exec i s = movStoreWord a (joinWord x y) len s) :
    StoreStops s a 4 i ∧ (s.Writable a 4 → ∃ t, exec i s = .next t ∧
      MovStored s t a [x.extractLsb' 8 8, x.extractLsb' 0 8, y.extractLsb' 8 8, y.extractLsb' 0 8] len) := by
  have hbytes : wordBytes (joinWord x y) = halfBytes x ++ halfBytes y := by
    rw [wordBytes, hiHalf_joinWord, loHalf_joinWord]
  rw [movStoreWord, State.storeWord, hbytes] at hexec
  exact storeStops_and_of_writable (bs := halfBytes x ++ halfBytes y) (by simp [halfBytes]) hexec
end

/-! The forms. -/

/-- Settles O38: a pair write of the immediate's halves. -/
theorem movImmediateToPair : Obligations.MovImmediateToPair :=
  ⟨fun _ _ _ => rfl, fun _ _ _ _ => ⟨_, rfl, pairHolds_writePair .., movLoaded_writePair ..⟩⟩

/-- Settles O39: the two byte loads, at an absolute and at an offset address. -/
theorem movByteLoads : Obligations.MovByteLoads :=
  ⟨fun _ _ => rfl, fun _ _ => rfl, fun _ _ _ => rfl, fun _ _ _ => rfl,
    fun _ _ _ => exec_of_movLoadLow rfl, fun _ _ _ => exec_of_movLoadHigh rfl,
    fun _ _ _ _ => exec_of_movLoadLow rfl, fun _ _ _ _ => exec_of_movLoadHigh rfl⟩

/-- Settles O40: the halfword load, at an absolute and at an offset address; the base is read in the state before the
write. -/
theorem movHalfwordLoads : Obligations.MovHalfwordLoads :=
  ⟨fun _ _ => rfl, fun _ _ _ => rfl, fun _ _ _ => exec_of_movLoadHalf rfl, fun _ _ _ _ => exec_of_movLoadHalf rfl⟩

/-- Settles O41: the word load to a pair, at an absolute and at an offset address. -/
theorem movPairLoads : Obligations.MovPairLoads :=
  ⟨fun _ _ _ => rfl, fun _ _ _ _ => rfl, fun _ _ _ _ => exec_of_movLoadPair rfl,
    fun _ _ _ _ _ => exec_of_movLoadPair rfl⟩

/-- Settles O42: the byte store of either lane, at an absolute and at an offset address. -/
theorem movByteStores : Obligations.MovByteStores :=
  ⟨fun _ _ => rfl, fun _ _ => rfl, fun _ _ _ => rfl, fun _ _ _ => rfl,
    fun _ _ _ => exec_of_movStoreByte rfl, fun _ _ _ => exec_of_movStoreByte rfl,
    fun _ _ _ _ => exec_of_movStoreByte rfl, fun _ _ _ _ => exec_of_movStoreByte rfl⟩

/-- Settles O43: the halfword store, at an absolute and at an offset address. -/
theorem movHalfwordStores : Obligations.MovHalfwordStores :=
  ⟨fun _ _ => rfl, fun _ _ _ => rfl, fun _ _ _ => exec_of_movStoreHalf rfl, fun _ _ _ _ => exec_of_movStoreHalf rfl⟩

/-- Settles O44: the word store of a pair's halves, at an absolute and at an offset address. -/
theorem movPairStores : Obligations.MovPairStores :=
  ⟨fun _ _ _ => rfl, fun _ _ _ _ => rfl, fun _ _ _ _ => exec_of_movStoreWord rfl,
    fun _ _ _ _ _ => exec_of_movStoreWord rfl⟩

/-- Settles O37: a register write of the immediate, or of the other register's value. -/
theorem movImmediateAndRegister : Obligations.MovImmediateAndRegister :=
  ⟨fun _ _ => rfl, fun _ _ => rfl, fun _ _ _ => ⟨_, rfl, reg_advance_setReg_same .., movLoaded_setReg ..⟩,
    fun _ _ _ => ⟨_, rfl, reg_advance_setReg_same .., movLoaded_setReg ..⟩⟩

end Sys2Proof.Proofs
end

section
/-! PROOFS. The family 42_branch. The conditional branches are `branchIf` on their own test; what is left of each is that
its test says what the manual says it compares (R172 to R176). B is a write of `pc` (R171). -/

namespace Sys2Proof.Proofs

open Sys2Proof.Machine Sys2Proof.Machine.Laws

/-- A write of `pc` leaves all else (R170). -/
theorem onlyPc_setPc (s : State) (target : Addr) : OnlyPc s (s.setPc target) :=
  ⟨fun _ _ => rfl, ⟨rfl, rfl⟩, fun _ => rfl, ⟨rfl, rfl⟩⟩

/-- An instruction that is a conditional branch changes only `pc`, goes to its target where its test holds, and on by its
length where the test fails. -/
theorem exec_of_branchIf {i : Instr} {s : State} {cond : Bool} {target : Addr} {len : Nat} {Taken NotTaken : Prop}
    (hexec : exec i s = branchIf cond target len s) (htaken : Taken → cond = true)
    (hnotTaken : NotTaken → cond = false) :
    ∃ t, exec i s = .next t ∧ OnlyPc s t ∧ (Taken → t.pc = target) ∧ (NotTaken → Advanced s t len) := by
  obtain ⟨t, ht, honly, hpc⟩ := branchIf_eq cond target len s
  refine ⟨t, hexec.trans ht, honly, fun h => ?_, fun h => ?_⟩
  · rw [hpc, if_pos (htaken h)]
  · rw [Advanced, hpc, if_neg (ne_true_of_eq_false (hnotTaken h))]

/-- Settles O46: the tests are equality and unsigned order, and their opposites. -/
theorem compareBranches : Obligations.CompareBranches :=
  ⟨fun _ _ _ => rfl, fun _ _ _ => rfl, fun _ _ _ => rfl, fun _ _ _ => rfl,
    fun _ _ _ _ => exec_of_branchIf rfl beq_iff_eq.mpr beq_eq_false_iff_ne.mpr,
    fun _ _ _ _ => exec_of_branchIf rfl bne_iff_ne.mpr bne_eq_false_iff_eq.mpr,
    fun _ _ _ _ => exec_of_branchIf rfl decide_eq_true fun hle => decide_eq_false (Nat.not_lt.mpr hle),
    fun _ _ _ _ => exec_of_branchIf rfl decide_eq_true fun hle => decide_eq_false (Nat.not_lt.mpr hle)⟩

/-- Settles O47: B writes `pc` alone; BRO's test is V itself. -/
theorem alwaysAndOverflowBranches : Obligations.AlwaysAndOverflowBranches :=
  ⟨fun _ => rfl, fun _ => rfl, fun target s => ⟨_, rfl, rfl, onlyPc_setPc s target⟩,
    fun _ _ => exec_of_branchIf rfl id id⟩

end Sys2Proof.Proofs
end

section
/-! PROOFS. The family 43_multiply: neither long product is cut (R181, R182), and a long multiply whose layout is not
known is refused (R183). The low half of either product is the product of the two halfwords as words: modulo 2^16 it
does not matter whether the sources are read with a sign. -/

namespace Sys2Proof.Proofs

open Sys2Proof.Machine Sys2Proof.Machine.Laws

/-! The two products. -/

/-- UMULL's 32 bits are the exact unsigned product (R181): each factor is below 2^16. -/
theorem toNat_umullProduct (a b : Half) : (umullProduct a b).toNat = a.toNat * b.toNat := by
  have hbound : a.toNat * b.toNat < 2 ^ 16 * 2 ^ 16 := Nat.mul_lt_mul'' a.isLt b.isLt
  rw [umullProduct, BitVec.toNat_ofNat, Nat.mod_eq_of_lt (by omega)]

/-- SMULL's 32 bits, read as two's complement, are the exact signed product (R182): it lies between -2^30 and 2^30. -/
theorem toInt_smullProduct (a b : Half) : (smullProduct a b).toInt = a.toInt * b.toInt := by
  have hlower : -2 ^ 30 ≤ a.toInt * b.toInt := BitVec.le_toInt_mul_toInt
  have hupper : a.toInt * b.toInt ≤ 2 ^ 30 := BitVec.toInt_mul_toInt_le
  exact BitVec.toInt_ofInt_eq_self (by decide) (by omega) (by omega)

theorem loHalf_ofNat (n : Nat) : loHalf (BitVec.ofNat 32 n) = BitVec.ofNat 16 n := by
  rw [loHalf, ← BitVec.setWidth_eq_extractLsb' (by decide), BitVec.setWidth_ofNat_of_le (by decide)]

theorem loHalf_ofInt (x : Int) : loHalf (BitVec.ofInt 32 x) = BitVec.ofInt 16 x := by
  apply BitVec.eq_of_toNat_eq
  rw [loHalf, BitVec.extractLsb'_toNat, Nat.shiftRight_zero, BitVec.toNat_ofInt, BitVec.toNat_ofInt]
  omega

theorem loHalf_umullProduct (a b : Half) : loHalf (umullProduct a b) = a * b := by
  rw [umullProduct, loHalf_ofNat, BitVec.ofNat_mul, BitVec.ofNat_toNat, BitVec.ofNat_toNat, BitVec.setWidth_eq,
    BitVec.setWidth_eq]

theorem loHalf_smullProduct (a b : Half) : loHalf (smullProduct a b) = a * b := by
  rw [smullProduct, loHalf_ofInt, BitVec.ofInt_mul, BitVec.ofInt_toInt, BitVec.ofInt_toInt]

/-- Settles O50: both products fit 32 bits, and either low half is the product of the halfwords. -/
theorem smullProductIsExact : Obligations.SmullProductIsExact := fun a b =>
  ⟨toInt_smullProduct a b, toNat_umullProduct a b, (loHalf_smullProduct a b).trans (loHalf_umullProduct a b).symm⟩

/-! The refusal. -/

/-- The pairs of UMULL and SMULL are of format RRR (R68). -/
theorem opcodeForm_longMultiply {op : Nat} (hop : op = 0x10 ∨ op = 0x11) :
    ∃ f, opcodeForm op 0x00 = some (.rrr f) := by
  rcases hop with rfl | rfl
  · exact ⟨.umull, rfl⟩
  · exact ⟨.smull, rfl⟩

/-- With `MULL_LEN = 4` no layout of format RRR is known (R183). -/
theorem layoutKnown_rrr_of_four {p : Params} (h : p.mullLen = .four) (f : RegNum → RegNum → RegNum → Instr) :
    layoutKnown p (.rrr f) = false := by
  rw [layoutKnown, h]
  rfl

/-- A defined pair without a known layout is refused before any byte behind it is fetched (R183). -/
theorem fetchInstr_of_layout_unknown {s : State} {form : Form} (h0 : s.isMapped s.pc = true)
    (h1 : s.isMapped (s.pc + 1) = true)
    (hform : opcodeForm (s.byteAt (s.pc + 1)).toNat (s.byteAt s.pc).toNat = some form)
    (hlayout : layoutKnown s.params form = false) : s.fetchInstr = .refused .longMultiplyLayout := by
  simp only [State.fetchInstr, fetchByte_of_mapped h0, fetchByte_of_mapped h1, andThen_next, hform, hlayout,
    Bool.false_eq_true, if_false]

/-- Settles O12: the fetch refuses either pair, so there is nothing to execute. -/
theorem longMultiplyNeedsItsLayout : Obligations.LongMultiplyNeedsItsLayout := by
  intro s hrun hlen h0 h1 hspec hop
  have hopNat : (s.byteAt (s.pc + 1)).toNat = 0x10 ∨ (s.byteAt (s.pc + 1)).toNat = 0x11 :=
    hop.imp (congrArg BitVec.toNat) (congrArg BitVec.toNat)
  obtain ⟨f, hf⟩ := opcodeForm_longMultiply hopNat
  have hform : opcodeForm (s.byteAt (s.pc + 1)).toNat (s.byteAt s.pc).toNat = some (.rrr f) := by rw [hspec]; exact hf
  rw [step_of_running hrun, fetchInstr_of_layout_unknown h0 h1 hform (layoutKnown_rrr_of_four hlen f),
    andThen_refused]

end Sys2Proof.Proofs
end

section
/-! PROOFS. The family 44_stack. What a push leaves is said once, for any instruction that is a push and then a write of
`pc` (R186); a pop is a load with a pair write, as the MOV loads are. PSH and then POP is the one followed by the other:
the pointer comes back to where the push stored. -/

namespace Sys2Proof.Proofs

open Sys2Proof.Machine Sys2Proof.Machine.Laws Sys2Proof.Laws

/-! What a push leaves. -/

section
variable {s t : State} {v : Half}

/-- `v` is at the old R14, most significant byte first, R14 has gone down by 2, and nothing else changed but `pc`, of
which this says nothing (R186, R187, R191). -/
structure Pushed (s t : State) (v : Half) : Prop where
  high : t.byteAt (stackAddr (s.reg 14)) = hiByte v
  low : t.byteAt (stackAddr (s.reg 14) + 1) = loByte v
  memSame : MemSameOutside s t (stackAddr (s.reg 14)) 2
  pointer : t.reg 14 = s.reg 14 - 2
  regsSame : RegsSameExcept s t [14]
  flagsSame : FlagsSame s t
  controlSame : ControlSame s t

/-- The halfword at the old R14 is the one pushed. -/
theorem Pushed.halfAt_eq (h : Pushed s t v) : t.halfAt (stackAddr (s.reg 14)) = v := by
  rw [State.halfAt, h.high, h.low, joinHalf_hiByte_loByte]

theorem Pushed.setPc (h : Pushed s t v) (a : Addr) : Pushed s (t.setPc a) v := { h with }

theorem pushHalf_of_fault {f : Fault} (h : s.storeFault (stackAddr (s.reg 14)) 2 = some f) :
    s.pushHalf v = .fault f := by
  rw [State.pushHalf, State.storeHalf, spReg, storeBytes_of_fault h, andThen_fault]

theorem pushHalf_of_writable (h : s.Writable (stackAddr (s.reg 14)) 2) :
    ∃ t, s.pushHalf v = .next t ∧ Pushed s t v ∧ t.pc = s.pc := by
  have hbytes := byteAt_stored s (stackAddr (s.reg 14)) (halfBytes v) (by simp [halfBytes])
  refine ⟨_, pushHalf_eq_next.mpr ⟨h, rfl⟩, ?_, rfl⟩
  exact {
    high := by simpa [halfBytes, spReg] using hbytes 0 Nat.zero_lt_two
    low := hbytes 1 Nat.one_lt_two
    memSame := memSameOutside_stored s _ (halfBytes v)
    pointer := (setReg_reg ..).trans (if_pos rfl)
    regsSame := fun r hr => (setReg_reg ..).trans (if_neg (mt List.mem_singleton.mpr hr))
    flagsSame := ⟨rfl, rfl⟩
    controlSame := ⟨rfl, rfl⟩ }

/-- An instruction that is a push and then a write of `pc`, which may rest on the old one: it stops with the store's
fault, and goes on where the two bytes are writable. -/
theorem storeStops_and_of_push {i : Instr} {next : Addr → Addr}
    (hexec : exec i s = andThen (s.pushHalf v) fun t => .next (t.setPc (next t.pc))) :
    StoreStops s (stackAddr (s.reg 14)) 2 i ∧ (s.Writable (stackAddr (s.reg 14)) 2 →
      ∃ t, exec i s = .next t ∧ Pushed s t v ∧ t.pc = next s.pc) := by
  refine ⟨fun r hr => ?_, fun hwritable => ?_⟩
  · rw [hexec, pushHalf_of_fault hr, andThen_fault]
  · obtain ⟨t, ht, hpushed, hpc⟩ := pushHalf_of_writable (v := v) hwritable
    rw [hexec, ht, andThen_next]
    exact ⟨_, rfl, hpushed.setPc _, congrArg next hpc⟩
end

/-! PSH and POP. -/

theorem exec_psh (rd : RegNum) (s : State) : StoreStops s (stackAddr (s.reg 14)) 2 (.psh rd) ∧
    (s.Writable (stackAddr (s.reg 14)) 2 → ∃ t, exec (.psh rd) s = .next t ∧ Pushed s t (s.reg rd) ∧ Advanced s t 3) :=
  storeStops_and_of_push (next := (· + BitVec.ofNat 32 3)) rfl

/-- POP is the load at R14 plus 2, and the pair write of the value to `rd` and of the new pointer to R14 (R188). -/
theorem exec_pop (rd : RegNum) (s : State) : LoadStops s (stackAddr (s.reg 14 + 2)) 2 (.pop rd) ∧
    (s.Readable (stackAddr (s.reg 14 + 2)) 2 → ∃ t, exec (.pop rd) s = .next t ∧
      PairHolds t rd 14 (s.halfAt (stackAddr (s.reg 14 + 2))) (s.reg 14 + 2) ∧ MovLoaded s t [rd, 14] 3) :=
  loadStops_and_of_readable (P := fun t => PairHolds t rd 14 _ _) rfl (pairHolds_writePair ..) (movLoaded_writePair ..)

/-- Settles O51: PSH is a push of the register's value before the decrement. -/
theorem pushResult : Obligations.PushResult := by
  refine ⟨fun _ => rfl, fun rd s => ?_⟩
  obtain ⟨hstops, hgoesOn⟩ := exec_psh rd s
  refine ⟨hstops, fun hwritable => ?_⟩
  obtain ⟨t, ht, ⟨hhigh, hlow, hmem, hpointer, hregs, hflags, hcontrol⟩, hadvanced⟩ := hgoesOn hwritable
  exact ⟨t, ht, hhigh, hlow, hmem, hpointer, hregs, hflags, hadvanced, hcontrol⟩

/-- Settles O52: POP is a load and a pair write, whose two destinations `POP R14` makes one. -/
theorem popResult : Obligations.PopResult := ⟨fun _ => rfl, exec_pop⟩

/-! PSH and then POP. -/

section
variable {s t u : State}

/-- Which bytes are readable is a matter of the parameters alone. -/
theorem readable_of_controlSame {a : Addr} {n : Nat} (h : s.Readable a n) (hst : ControlSame s t) : t.Readable a n := by
  obtain ⟨-, hparams⟩ := hst
  simpa only [State.Readable, State.isMapped, State.inText, hparams] using h

theorem regsSameExcept_trans {rs rs' : List RegNum} (hst : RegsSameExcept s t rs) (htu : RegsSameExcept t u rs')
    (hsub : rs ⊆ rs') : RegsSameExcept s u rs' :=
  fun r hr => (htu r hr).trans (hst r fun hmem => hr (hsub hmem))
end

/-- Settles O53: the pop's pointer is the old R14, where the pushed halfword is. -/
theorem pushThenPopCopies : Obligations.PushThenPopCopies := by
  intro ra rb s hrb hwritable hreadable
  obtain ⟨-, hpush⟩ := exec_psh ra s
  obtain ⟨t, ht, hpushed, -⟩ := hpush hwritable
  have hback : t.reg 14 + 2 = s.reg 14 := by rw [hpushed.pointer, BitVec.sub_add_cancel]
  obtain ⟨-, hpop⟩ := exec_pop rb t
  rw [hback, hpushed.halfAt_eq] at hpop
  obtain ⟨u, hu, hpair, hregs, -⟩ := hpop (readable_of_controlSame hreadable hpushed.controlSame)
  obtain ⟨hcopied, hrestored⟩ : u.reg rb = s.reg ra ∧ u.reg 14 = s.reg 14 := by rwa [PairHolds, if_neg hrb] at hpair
  exact ⟨t, u, ht, hu, hcopied, hrestored, regsSameExcept_trans hpushed.regsSame hregs (List.subset_cons_self rb [14])⟩

end Sys2Proof.Proofs
end

section
/-! PROOFS. The family 45_subroutine. JSR is a push and then a write of `pc`, as PSH is (R191); RTS is a load and then a
write of R14 and `pc` (R192). A call and its return meet at the old R14: what JSR leaves there is the low half of the
return address, which is all of it where the address fits 16 bits. -/

namespace Sys2Proof.Proofs

open Sys2Proof.Machine Sys2Proof.Machine.Laws

/-! The return address as a halfword. -/

theorem hiByte_loHalf (w : Word) : hiByte (loHalf w) = w.extractLsb' 8 8 :=
  BitVec.extractLsb'_extractLsb'_of_le (by decide)

theorem loByte_loHalf (w : Word) : loByte (loHalf w) = w.extractLsb' 0 8 :=
  BitVec.extractLsb'_extractLsb'_of_le (by decide)

/-- An address that fits 16 bits is its low half, zero-extended (R190). -/
theorem setWidth_loHalf {w : Word} (hfits : w.toNat < 65536) : (loHalf w).setWidth 32 = w := by
  apply BitVec.eq_of_toNat_eq
  rw [BitVec.toNat_setWidth, loHalf, BitVec.extractLsb'_toNat, Nat.shiftRight_zero]
  omega

/-! JSR and RTS by `RETADDR_MODE`. -/

section
variable {s : State}

/-- JSR whose return address fits pushes its low half and goes to the target, or stops where the push does (R191). -/
theorem exec_jsr_of_fits (target : Addr) (hmode : s.params.retaddrMode = .half16)
    (hfits : (s.pc + 6).toNat < 65536) : StoreStops s (stackAddr (s.reg 14)) 2 (.jsr target) ∧
    (s.Writable (stackAddr (s.reg 14)) 2 →
      ∃ t, exec (.jsr target) s = .next t ∧ Pushed s t (loHalf (s.pc + 6)) ∧ t.pc = target) :=
  storeStops_and_of_push (next := fun _ => target) (execJsr_of_fits hmode hfits)

/-- A return address that does not fit stops JSR before its push (R191). -/
theorem exec_jsr_of_not_fits (target : Addr) (hmode : s.params.retaddrMode = .half16)
    (habove : 65536 ≤ (s.pc + 6).toNat) :
    exec (.jsr target) s = .fault (.unpredictable "JSR return address above 0xFFFF") := by
  have hnonzero : hiHalf s.returnAddr ≠ 0 := mt hiHalf_eq_zero_iff.mp (Nat.not_lt.mpr habove)
  have hexec : exec (.jsr target) s = execJsr target s := rfl
  rw [hexec, execJsr, hmode]
  exact if_neg hnonzero

theorem exec_jsr_of_word32 (target : Addr) (hmode : s.params.retaddrMode = .word32) :
    exec (.jsr target) s = .refused .returnAddressLayout := by
  have hexec : exec (.jsr target) s = execJsr target s := rfl
  rw [hexec, execJsr, hmode]

theorem exec_rts_of_word32 (hmode : s.params.retaddrMode = .word32) :
    exec .rts s = .refused .returnAddressLayout := by
  have hexec : exec .rts s = execRts s := rfl
  rw [hexec, execRts, hmode]

/-- RTS is the load at R14 plus 2, which becomes R14; the halfword there, zero-extended, becomes `pc` (R192). -/
theorem exec_rts_of_half16 (hmode : s.params.retaddrMode = .half16) :
    LoadStops s (stackAddr (s.reg 14 + 2)) 2 .rts ∧
    (s.Readable (stackAddr (s.reg 14 + 2)) 2 → ∃ t, exec .rts s = .next t ∧
      t.pc = (s.halfAt (stackAddr (s.reg 14 + 2))).setWidth 32 ∧ t.reg 14 = s.reg 14 + 2 ∧
      RegsSameExcept s t [14] ∧ FlagsSame s t ∧ MemSame s t ∧ ControlSame s t) := by
  have hexec : exec .rts s = andThen (s.checkedLoad (stackAddr (s.reg 14 + 2)) 2 _) _ :=
    execRts_of_half16 hmode
  refine ⟨fun r hr => ?_, fun hreadable => ?_⟩
  · rw [hexec, checkedLoad_of_fault _ hr, andThen_fault]
  · rw [hexec, checkedLoad_of_readable _ hreadable, andThen_next]
    exact ⟨_, rfl, rfl, (setReg_reg ..).trans (if_pos rfl),
      fun r hr => (setReg_reg ..).trans (if_neg (mt List.mem_singleton.mpr hr)), ⟨rfl, rfl⟩, fun _ => rfl,
      rfl, rfl⟩
end

/-- Settles O54: where the return address fits, JSR is a push of its low half, whose bytes are the address's own. -/
theorem jsrResult : Obligations.JsrResult := by
  refine ⟨fun _ => rfl, fun target s hmode hfits => (exec_jsr_of_fits target hmode hfits).1,
    fun target s hmode hfits hwritable => ?_, fun target s => exec_jsr_of_not_fits target⟩
  obtain ⟨-, hgoesOn⟩ := exec_jsr_of_fits target hmode hfits
  obtain ⟨t, ht, ⟨hhigh, hlow, hmem, hpointer, hregs, hflags, hcontrol⟩, hpc⟩ := hgoesOn hwritable
  rw [hiByte_loHalf] at hhigh
  rw [loByte_loHalf] at hlow
  exact ⟨t, ht, hpc, hhigh, hlow, hmem, hpointer, hregs, hflags, hcontrol⟩

/-- Settles O55: the value of the halfword loaded is that of its two bytes, and zero extension keeps it. -/
theorem rtsResult : Obligations.RtsResult := by
  refine ⟨rfl, fun s hmode => (exec_rts_of_half16 hmode).1, fun s hmode hreadable => ?_⟩
  obtain ⟨-, hgoesOn⟩ := exec_rts_of_half16 hmode
  obtain ⟨t, ht, hpc, hrest⟩ := hgoesOn hreadable
  have hvalue : t.pc.toNat = (s.halfAt (stackAddr (s.reg 14 + 2))).toNat := by
    rw [hpc, BitVec.toNat_setWidth_of_le (by decide)]
  exact ⟨t, ht, hvalue.trans (toNat_halfAt ..), hrest⟩

/-- Settles O57: RTS reads at the old R14, where JSR left the low half of the return address, and R14 is back. -/
theorem returnGoesBehindTheCall : Obligations.ReturnGoesBehindTheCall := by
  intro target s hmode hfits hwritable hreadable
  obtain ⟨-, hcall⟩ := exec_jsr_of_fits target hmode hfits
  obtain ⟨t, ht, hpushed, -⟩ := hcall hwritable
  obtain ⟨-, hparams⟩ := hpushed.controlSame
  have hback : t.reg 14 + 2 = s.reg 14 := by rw [hpushed.pointer, BitVec.sub_add_cancel]
  obtain ⟨-, hreturn⟩ := exec_rts_of_half16 (s := t) (by rw [hparams, hmode])
  rw [hback, hpushed.halfAt_eq, setWidth_loHalf hfits] at hreturn
  obtain ⟨u, hu, hpc, hpointer, hregs, -⟩ := hreturn (readable_of_controlSame hreadable hpushed.controlSame)
  have hframe : RegsSameExcept s u [14] := regsSameExcept_trans hpushed.regsSame hregs (List.Subset.refl _)
  refine ⟨t, u, ht, hu, hpc, fun r _ => ?_⟩
  rcases eq_or_ne r 14 with rfl | hr
  · exact hpointer
  · exact hframe r (mt List.mem_singleton.mp hr)

/-- Settles O56: either instruction looks at `RETADDR_MODE` first. -/
theorem wordReturnAddressRefused : Obligations.WordReturnAddressRefused :=
  ⟨fun target _ => exec_jsr_of_word32 target, fun _ => exec_rts_of_word32⟩

end Sys2Proof.Proofs
end

section
/-! PROOFS. The family 46_system: a no-operation of this revision is `State.advance` by its length, which is a write of
`pc` alone. -/

namespace Sys2Proof.Proofs

open Sys2Proof.Machine

/-- Going on by `len` bytes is a write of `pc`, so it has that write's frame. -/
theorem onlyPc_advance (s : State) (len : Nat) : OnlyPc s (s.advance len) := onlyPc_setPc s _

/-- The four no-operations are one and the same: each goes on by its two bytes (R195, R197 to R199). -/
theorem exec_noOperation {i : Instr} (hnoOperation : i = .nop ∨ i = .wfi ∨ i = .eni ∨ i = .dsi) (s : State) :
    exec i s = .next (s.advance 2) := by
  obtain rfl | rfl | rfl | rfl := hnoOperation <;> rfl

/-- Settles O58: the state gone on from is left as it is but for `pc`. -/
theorem noOperations : Obligations.NoOperations :=
  ⟨rfl, rfl, rfl, rfl, fun _ s hnoOperation =>
    ⟨s.advance 2, exec_noOperation hnoOperation s, onlyPc_advance s 2, Laws.advance_pc s 2⟩⟩

end Sys2Proof.Proofs
end
